-- ==== Sys2Proof/Word.lean ====
section
/-! DEFINITION. The word types of the block: binary64 and binary32 patterns, and slot indices. -/

namespace Sys2Proof

/-- A binary64 datum, held as its IEEE 754 bit pattern (rules R4, R11, R53). -/
abbrev B64 := BitVec 64

/-- A binary32 datum, held as its IEEE 754 bit pattern (rules R4, R11, R53). -/
abbrev B32 := BitVec 32

/-- A slot index, the 3-bit field `V` used directly; all 8 values name a slot (rules R3, R72). -/
abbrev SlotIx := BitVec 3

/-- A MIDI note number 0..127, `u7` (rules R20, R26). -/
abbrev Note := BitVec 7

end Sys2Proof
end

