-- ==== Sys2Proof/Syntax.lean ====
section
/-! DEFINITION. The instructions: one constructor per row of spec/opcode_table.json. -/

namespace Sys2Proof

/-- The waveform selector's five values (rule R80; 93 I12: "A model's type for WAVE_CUR has five values"). -/
inductive Wave where
  | sine | saw | square | tri | noise
deriving DecidableEq, Repr

/-- The operations of the block. The nine commands (format C, rules R75, R77), the parameter write
(format P, rule R78), and the five waveform operations that `TICK` applies to the active slots,
selected by the 3-bit code in `WAVE_CUR` (format SEL, rules R80, R101). -/
inductive Instr where
  /-- `NOP` (rule R160). -/
  | nop
  /-- `PREPARE`; `rate` is `cmd_data`, the binary64 pattern of the sample rate (rules R76, R161). -/
  | prepare (rate : B64)
  /-- `LATCH` (rule R163). -/
  | latch
  /-- `NOTEON v, n` (rule R133). -/
  | noteon (v : SlotIx) (n : BitVec 8)
  /-- `KILL v` (rule R134). -/
  | kill (v : SlotIx)
  /-- `TICK` (rule R135). -/
  | tick
  /-- `READ a` (rule R165). -/
  | read (a : BitVec 8)
  /-- `CLRERR m`; legal only when `m[7] = 0` (rules R73, R166). -/
  | clrerr (m : BitVec 8)
  /-- `SWRESET` (rule R167). -/
  | swreset
  /-- `SETWAVE w`, the parameter write to address 0 (rule R164). -/
  | setwave (w : B32)
  /-- Waveform code 0 (rule R102). -/
  | sine
  /-- Waveform code 1 (rule R103). -/
  | saw
  /-- Waveform code 2 (rule R104). -/
  | square
  /-- Waveform code 3 (rule R105). -/
  | tri
  /-- Waveform code 4 (rule R106). -/
  | noise
deriving DecidableEq, Repr

end Sys2Proof
end

