-- ==== Sys2Proof/WellFormed.lean ====
section
/-! DEFINITION. Which instructions the encoding can carry. -/

namespace Sys2Proof

/-- Every operand of every instruction fits its field by its type; the one further requirement is
that `CLRERR`'s mask has bit 7 clear (rules R73, R77, R83 item 3). -/
def Instr.wellFormed : Instr → Bool
  | .nop => true
  | .prepare _ => true
  | .latch => true
  | .noteon _ _ => true
  | .kill _ => true
  | .tick => true
  | .read _ => true
  | .clrerr m => !m.getLsbD 7
  | .swreset => true
  | .setwave _ => true
  | .sine => true
  | .saw => true
  | .square => true
  | .tri => true
  | .noise => true

end Sys2Proof
end

