-- ==== Sys2Proof/Decode.lean ====
section
/-! DEFINITION. Decoding of the three formats (C, P, SEL), the encoder, the opcode table's match and
mask rows, and the host's numbering of a table row's bits. -/

namespace Sys2Proof

/-- What carries an instruction: a command word with its data word (format C, rules R70, R71), a
parameter write (format P, rule R78), or the selector code in `WAVE_CUR` (format SEL, rule R80). -/
inductive Words where
  | command (cmd : BitVec 32) (data : BitVec 64)
  | param (addr : BitVec 4) (wdata : BitVec 32)
  | select (code : BitVec 3)
deriving DecidableEq, Repr

/-- Why words carry no instruction of this block. -/
inductive Reject where
  /-- `OP` is 0x9..0xF (rules R75, R83 item 1). -/
  | reservedOpcode
  /-- `RSV` is not 0 (rules R74, R83 item 2). -/
  | reservedBits
  /-- `V` is not 0 where it must be (rules R72, R83 item 3). -/
  | slotField
  /-- `IMM8` is not what the opcode allows (rules R73, R83 item 3). -/
  | immField
  /-- A parameter address of another block (rule R79); not an error. -/
  | foreignParam
  /-- A selector code 5..7, never written (rule R80). -/
  | unusedCode
deriving DecidableEq, Repr

/-- `OP`, bits 31:28 (rule R71). -/
def opField (cmd : BitVec 32) : BitVec 4 := cmd.extractLsb' 28 4

/-- `RSV`, bits 27:11 (rules R71, R74). -/
def rsvField (cmd : BitVec 32) : BitVec 17 := cmd.extractLsb' 11 17

/-- `V`, bits 10:8 (rules R71, R72). -/
def slotField (cmd : BitVec 32) : SlotIx := cmd.extractLsb' 8 3

/-- `IMM8`, bits 7:0 (rules R71, R73). -/
def immField (cmd : BitVec 32) : BitVec 8 := cmd.extractLsb' 0 8

/-- The rows of rule R77 whose `V` must be 0. -/
def needSlotZero (cmd : BitVec 32) (i : Except Reject Instr) : Except Reject Instr :=
  if slotField cmd = 0 then i else .error .slotField

/-- The rows of rule R77 whose `IMM8` must be 0. -/
def needImmZero (cmd : BitVec 32) (i : Except Reject Instr) : Except Reject Instr :=
  if immField cmd = 0 then i else .error .immField

/-- The command port's decoder (rules R71 to R77, R83). Only `PREPARE` takes the data word (rule R76). -/
def decodeCommand (cmd : BitVec 32) (data : BitVec 64) : Except Reject Instr :=
  if rsvField cmd ≠ 0 then .error .reservedBits
  else
    match (opField cmd).toNat with
    | 0 => needSlotZero cmd (needImmZero cmd (.ok .nop))
    | 1 => needSlotZero cmd (needImmZero cmd (.ok (.prepare data)))
    | 2 => needSlotZero cmd (needImmZero cmd (.ok .latch))
    | 3 => .ok (.noteon (slotField cmd) (immField cmd))
    | 4 => needImmZero cmd (.ok (.kill (slotField cmd)))
    | 5 => needSlotZero cmd (needImmZero cmd (.ok .tick))
    | 6 => needSlotZero cmd (.ok (.read (immField cmd)))
    | 7 =>
      needSlotZero cmd
        (if (immField cmd).getLsbD 7 then .error .immField else .ok (.clrerr (immField cmd)))
    | 8 => needSlotZero cmd (needImmZero cmd (.ok .swreset))
    | _ => .error .reservedOpcode

/-- The parameter port's decoder: address 0 is this block's, the others are not (rules R78, R79). -/
def decodeParam (addr : BitVec 4) (wdata : BitVec 32) : Except Reject Instr :=
  if addr = 0 then .ok (.setwave wdata) else .error .foreignParam

/-- The selector code of a waveform (rule R80). -/
def Wave.code : Wave → BitVec 3
  | .sine => 0
  | .saw => 1
  | .square => 2
  | .tri => 3
  | .noise => 4

/-- The waveform a 3-bit code selects; codes 5..7 select none (rule R80). -/
def Wave.ofCode (c : BitVec 3) : Option Wave :=
  match c.toNat with
  | 0 => some .sine
  | 1 => some .saw
  | 2 => some .square
  | 3 => some .tri
  | 4 => some .noise
  | _ => none

/-- The waveform operation of a selector value (rule R101). -/
def Wave.instr : Wave → Instr
  | .sine => .sine
  | .saw => .saw
  | .square => .square
  | .tri => .tri
  | .noise => .noise

/-- The selector's decoder (rules R80, R101). -/
def decodeSelect (code : BitVec 3) : Except Reject Instr :=
  match Wave.ofCode code with
  | some w => .ok w.instr
  | none => .error .unusedCode

/-- The decoder of all three formats, total. -/
def decode : Words → Except Reject Instr
  | .command cmd data => decodeCommand cmd data
  | .param addr wdata => decodeParam addr wdata
  | .select code => decodeSelect code

/-- A command word from its fields, `RSV` zero (rule R71). -/
def commandWord (op : BitVec 4) (v : SlotIx) (imm : BitVec 8) : BitVec 32 :=
  op ++ 0#17 ++ v ++ imm

/-- The encoder (rules R77, R78, R80, R86). The data word of a command that ignores it is 0. -/
def encode : Instr → Words
  | .nop => .command (commandWord 0x0 0 0) 0
  | .prepare rate => .command (commandWord 0x1 0 0) rate
  | .latch => .command (commandWord 0x2 0 0) 0
  | .noteon v n => .command (commandWord 0x3 v n) 0
  | .kill v => .command (commandWord 0x4 v 0) 0
  | .tick => .command (commandWord 0x5 0 0) 0
  | .read a => .command (commandWord 0x6 0 a) 0
  | .clrerr m => .command (commandWord 0x7 0 m) 0
  | .swreset => .command (commandWord 0x8 0 0) 0
  | .setwave w => .param 0 w
  | .sine => .select 0
  | .saw => .select 1
  | .square => .select 2
  | .tri => .select 3
  | .noise => .select 4

/-- One row of the opcode table: the bits under `mask` must equal `pattern` (the table's `match`). -/
structure TableRow where
  mnemonic : String
  pattern : Nat
  mask : Nat
deriving DecidableEq, Repr

/-- Each instruction's row, transcribed from spec/opcode_table.json and rule R77. -/
def tableRow : Instr → TableRow
  | .nop => ⟨"NOP", 0x00000000, 0xFFFFFFFF⟩
  | .prepare _ => ⟨"PREPARE", 0x10000000, 0xFFFFFFFF⟩
  | .latch => ⟨"LATCH", 0x20000000, 0xFFFFFFFF⟩
  | .noteon _ _ => ⟨"NOTEON", 0x30000000, 0xFFFFF800⟩
  | .kill _ => ⟨"KILL", 0x40000000, 0xFFFFF8FF⟩
  | .tick => ⟨"TICK", 0x50000000, 0xFFFFFFFF⟩
  | .read _ => ⟨"READ", 0x60000000, 0xFFFFFF00⟩
  | .clrerr _ => ⟨"CLRERR", 0x70000000, 0xFFFFFF80⟩
  | .swreset => ⟨"SWRESET", 0x80000000, 0xFFFFFFFF⟩
  | .setwave _ => ⟨"SETWAVE", 0x0, 0xF⟩
  | .sine => ⟨"SINE", 0x0, 0x7⟩
  | .saw => ⟨"SAW", 0x1, 0x7⟩
  | .square => ⟨"SQUARE", 0x2, 0x7⟩
  | .tri => ⟨"TRI", 0x3, 0x7⟩
  | .noise => ⟨"NOISE", 0x4, 0x7⟩

/-- The nine rows of the command port (rule R77). -/
def commandRows : List TableRow :=
  [tableRow .nop, tableRow (.prepare 0), tableRow .latch, tableRow (.noteon 0 0), tableRow (.kill 0),
   tableRow .tick, tableRow (.read 0), tableRow (.clrerr 0), tableRow .swreset]

/-- The bits of words that the table's `pattern` and `mask` apply to: the command word, the parameter
address, or the selector code. -/
def Words.tableBits : Words → Nat
  | .command cmd _ => cmd.toNat
  | .param addr _ => addr.toNat
  | .select code => code.toNat

/-- `(w AND mask(M)) = match(M)` (rule R77). -/
def TableRow.fits (r : TableRow) (w : Nat) : Bool := (w &&& r.mask) == r.pattern

/-- The words a table row's `nbits` bits `w` stand for, bit 0 the least significant (log 2).
Command words are 32 bits, with the data word above them. The parameter write is `par_addr` in bits
3:0 and `par_wdata` above. In whole bytes a parameter address and a selector code are both 8 bits:
an address of this block is taken as a parameter write, any other value as a selector code. -/
def tableWords (nbits w : Nat) : Words :=
  if nbits ≤ 3 then .select (BitVec.ofNat 3 w)
  else if nbits ≤ 4 then .param (BitVec.ofNat 4 w) 0
  else if nbits ≤ 8 then
    if w % 16 = 0 then .param 0 (BitVec.ofNat 32 (w / 16)) else .select (BitVec.ofNat 3 w)
  else if nbits = 36 then .param (BitVec.ofNat 4 w) (BitVec.ofNat 32 (w / 16))
  else if nbits = 40 then .param (BitVec.ofNat 4 w) (BitVec.ofNat 32 (w / 16))
  else .command (BitVec.ofNat 32 w) (BitVec.ofNat 64 (w / 2 ^ 32))

/-- The instruction the decoder reads from a table row's bits (log 2). -/
def decodeTableWord (nbits w : Nat) : Option Instr :=
  match decode (tableWords nbits w) with
  | .ok i => some i
  | .error _ => none

end Sys2Proof
end

