-- ==== Sys2Proof/Config.lean ====
section
/-! DEFINITION. Configuration: the constants the spec fixes, the OPEN parameters of rule R8, and the
free values. -/

namespace Sys2Proof

namespace Config

/-- `TWO_PI` (rule R15). -/
def twoPi : B64 := 0x401921FB54442D18#64

/-- `PI` (rule R15). -/
def pi : B64 := 0x400921FB54442D18#64

/-- `SR_MIN` = 1.0 (rules R8, R162). -/
def srMin : B64 := 0x3FF0000000000000#64

/-- `SR_MAX` = 1048576.0 (rules R8, R162). -/
def srMax : B64 := 0x4130000000000000#64

/-- `ID` (rules R2, R33). -/
def ident : BitVec 64 := 0x000000084F534331#64

/-- The OPEN parameters that are functions of operands: the note table `ET_HZ` and the sine `SIN64`
(rules R8, R102, R132). The shared operations take them; `exec` uses the hardware's own. -/
structure Params where
  /-- `ET_HZ[n]` (rule R132). -/
  etHz : Note → B64
  /-- `SIN64` (rule R102). -/
  sin64 : B64 → B64

/-- FREE VALUE (log 5). The raw noise pattern of slot `v` at the model's draw number `k`: nothing
constrains it (rules R14, R27, R106). -/
opaque noiseBits (k : Nat) (v : SlotIx) : B32

/-- FREE VALUE (log 7). The sign and payload of a binary64 operation's NaN result, which rule R12
does not state. -/
opaque nanBits64 (a b : B64) : B64

/-- FREE VALUE (log 7). The sign and payload of a NaN converted to binary32, which rule R12 does not
state. -/
opaque nanBits32 (a : B64) : B32

/-- FREE VALUE (log 8). `wrap` outside the domain rule R131 states (a negative or non-finite sum). -/
opaque wrapOutside (s : B64) : B64

/-- FREE VALUE (log 9). `SIN64` where the model's enclosure of the real sine does not decide the
rounding, and on patterns that are no finite number (rule R102). -/
opaque sinBits (x : B64) : B64

end Config

end Sys2Proof
end

