-- ==== Sys2Proof/Machine/State.lean ====
section
/-! DEFINITION. The machine's state as plain data, its reset value, and the reasons a step can stop. -/

namespace Sys2Proof.Machine

/-- One oscillator slot (rule R20). -/
structure Slot where
  /-- `ACTIVE[v]` (rule R24). -/
  active : Bool
  /-- `NOTE[v]` (rule R26). -/
  note : Note
  /-- `FREQ[v]` (rule R21). -/
  freq : B64
  /-- `INC[v]` (rule R22). -/
  inc : B64
  /-- `PHASE[v]` (rule R23). -/
  phase : B64
  /-- `OUT[v]`, which the output latch `out[v]` equals (rules R25, R34). -/
  out : B32
deriving DecidableEq, Repr

/-- The slot file: exactly 8 slots (rules R3, R20). -/
structure Slots where
  v0 : Slot
  v1 : Slot
  v2 : Slot
  v3 : Slot
  v4 : Slot
  v5 : Slot
  v6 : Slot
  v7 : Slot
deriving DecidableEq, Repr

/-- The four error events of rule R203, codes 16..19. A model records each "as a fault in a record of
its own" and "may also run on" with the hardware's reduced effect (rule R206, log 4): the record is
`State.faults`. No step ends in one of these, because the hardware's behaviour after each event is
fully defined (rules R200, R206). -/
inductive Fault where
  /-- Code 16, recorded for every illegal command word (rule R202). Safe: the step runs on. -/
  | illegal
  /-- Code 17, recorded by `PREPARE` for a NaN rate (rule R161). Safe: the step runs on. -/
  | srNan
  /-- Code 18, recorded by `TICK` while unprepared (rule R135). Safe: the step runs on. -/
  | unprep
  /-- Code 19, recorded by `READ` of a reserved address (rule R165). Safe: the step runs on. -/
  | badAddr
deriving DecidableEq, Repr

/-- Why a step has no meaning for an instruction. -/
inductive Refusal where
  /-- An instruction without a meaning in this model, by its mnemonic. Raised by no arm. Safe: it would
  stop the run. -/
  | notModelled (mnemonic : String)
deriving DecidableEq, Repr

/-- The model's fault record (rule R206, log 4): which of codes 16..19 has occurred. The model's own
field, cleared by no step. -/
structure FaultRecord where
  illegal : Bool
  srNan : Bool
  unprep : Bool
  badAddr : Bool
deriving DecidableEq, Repr

/-- One event presented from outside: a command, a parameter write, or the reset input (rules R55,
R70). -/
inductive Input where
  /-- `cmd` and `cmd_data`, presented together by the audio agent. -/
  | command (cmd : BitVec 32) (data : BitVec 64)
  /-- `par_addr` and `par_wdata`, presented together by the control agent. -/
  | param (addr : BitVec 4) (wdata : BitVec 32)
  /-- The reset input `rst` (rule R230). -/
  | rst
deriving DecidableEq, Repr

/-- The block's state (rules R20 to R34), the model's own record and draw counter, and the events the
outside has still to present. -/
structure State where
  /-- The slot file (rule R20). -/
  slots : Slots
  /-- `SR` (rule R28). -/
  sr : B64
  /-- `PREPARED` (rule R29). -/
  prepared : Bool
  /-- `WAVE_PEND` (rule R30). -/
  wavePend : B32
  /-- `WAVE_CUR` (rule R32). -/
  waveCur : Wave
  /-- `STATUS[22:16]`, bit `i` for `STATUS[16 + i]` (rule R31). -/
  sticky : BitVec 7
  /-- `out_valid[7:0]` (rule R34). -/
  outValid : BitVec 8
  /-- `rdata[63:0]` (rule R34). -/
  rdata : BitVec 64
  /-- The model's own fault record (rule R206, log 4). -/
  faults : FaultRecord
  /-- The model's own count of noise draws, the argument of the free noise value (rule R106, log 5). -/
  noiseCtr : Nat
  /-- The outside's events in their total order, oldest first (rules R35, R39, R58, log 3). -/
  inputs : List Input
deriving DecidableEq, Repr

/-- A slot after reset (rule R37). -/
def Slot.reset : Slot := ⟨false, 0, 0, 0, 0, 0⟩

/-- The machine right after reset (rules R37, R230, R231): every register at the value of rule R37. The
model's own fields start empty (logs 3, 4, 5). -/
def State.reset : State where
  slots := ⟨Slot.reset, Slot.reset, Slot.reset, Slot.reset, Slot.reset, Slot.reset, Slot.reset, Slot.reset⟩
  sr := 0
  prepared := false
  wavePend := 0
  waveCur := .sine
  sticky := 0
  outValid := 0
  rdata := 0
  faults := ⟨false, false, false, false⟩
  noiseCtr := 0
  inputs := []

end Sys2Proof.Machine
end

