-- ==== Sys2Proof/Machine/Flags.lean ====
section
/-! DEFINITION. The event bits of `STATUS` and the model's fault record. -/

namespace Sys2Proof.Machine

/-- The events of rule R203, codes 16..22 in order. -/
inductive Event where
  | errIllegal
  | errSrNan
  | errUnprep
  | errBadaddr
  | infSrClamp
  | infNoteClamp
  | infWaveClamp
deriving DecidableEq, Repr

/-- The bit of `STATUS[22:16]` an event sets: its code less 16 (rules R31, R203). -/
def Event.bit : Event → Nat
  | .errIllegal => 0
  | .errSrNan => 1
  | .errUnprep => 2
  | .errBadaddr => 3
  | .infSrClamp => 4
  | .infNoteClamp => 5
  | .infWaveClamp => 6

/-- The fault a model records for an event: codes 16..19 only (rule R206, log 4). -/
def Event.fault : Event → Option Fault
  | .errIllegal => some .illegal
  | .errSrNan => some .srNan
  | .errUnprep => some .unprep
  | .errBadaddr => some .badAddr
  | .infSrClamp => none
  | .infNoteClamp => none
  | .infWaveClamp => none

/-- The sticky bits with an event's bit set; a bit already set stays set (rules R201, R205). -/
def setSticky (e : Event) (b : BitVec 7) : BitVec 7 := b ||| (1#7 <<< e.bit)

/-- The sticky bits with those named by a clear mask cleared (rule R166). -/
def clearSticky (m : BitVec 8) (b : BitVec 7) : BitVec 7 := b &&& ~~~(m.setWidth 7)

/-- The record with one more fault (rule R206). -/
def FaultRecord.add (f : Fault) (r : FaultRecord) : FaultRecord :=
  match f with
  | .illegal => { r with illegal := true }
  | .srNan => { r with srNan := true }
  | .unprep => { r with unprep := true }
  | .badAddr => { r with badAddr := true }

/-- The record after an event (rule R206). -/
def FaultRecord.after (e : Event) (r : FaultRecord) : FaultRecord :=
  match e.fault with
  | some f => r.add f
  | none => r

/-- Whether a fault is recorded. -/
def FaultRecord.has (r : FaultRecord) : Fault → Bool
  | .illegal => r.illegal
  | .srNan => r.srNan
  | .unprep => r.unprep
  | .badAddr => r.badAddr

end Sys2Proof.Machine
end

