-- ==== Sys2Proof/Machine/Float.lean ====
section
/-! DEFINITION. IEEE 754 binary64 and binary32 arithmetic by exact rationals and one rounding to
nearest, ties to even (rules R4, R11, R12, R53; 92 D12: no fused operation, no flush to zero). -/

namespace Sys2Proof.Machine

/-- An interchange format: the widths of its biased exponent and of its fraction (rule R53). -/
structure Fmt where
  expBits : Nat
  fracBits : Nat
deriving DecidableEq, Repr

/-- Sign 63, exponent 62:52, fraction 51:0 (rule R53). -/
def binary64 : Fmt := ⟨11, 52⟩

/-- Sign 31, exponent 30:23, fraction 22:0 (rule R53). -/
def binary32 : Fmt := ⟨8, 23⟩

/-- `m · 2^k`. -/
def scale2 (m : Nat) (k : Int) : ℚ :=
  match k with
  | .ofNat j => ((m * 2 ^ j : Nat) : ℚ)
  | .negSucc j => mkRat m (2 ^ (j + 1))

/-- The exponent of a format's smallest step: `1 - bias - fracBits` with `bias = 2^(expBits-1) - 1`. -/
def Fmt.qMin (F : Fmt) : Int := 2 - (2 ^ (F.expBits - 1) : Nat) - F.fracBits

/-- The pattern of infinity, without the sign bit. -/
def Fmt.infPat (F : Fmt) : Nat := (2 ^ F.expBits - 1) * 2 ^ F.fracBits

/-- The value of a finite pattern without its sign bit: subnormal when the biased exponent is 0, and
with the hidden leading 1 otherwise. -/
def Fmt.magnitude (F : Fmt) (p : Nat) : ℚ :=
  let e := p / 2 ^ F.fracBits
  let f := p % 2 ^ F.fracBits
  if e = 0 then scale2 f F.qMin else scale2 (2 ^ F.fracBits + f) (F.qMin + e - 1)

/-- What a pattern stands for. A finite datum is a sign and an exact magnitude, so that `-0` and `+0`
stay apart (rules R11, R12). -/
inductive Datum where
  | nan
  | inf (neg : Bool)
  | fin (neg : Bool) (mag : ℚ)
deriving DecidableEq

/-- The datum of a sign and a pattern without its sign bit. -/
def Fmt.unpack (F : Fmt) (neg : Bool) (p : Nat) : Datum :=
  if p < F.infPat then .fin neg (F.magnitude p)
  else if p = F.infPat then .inf neg
  else .nan

/-- `fromBits64` (rule R11). -/
def unpack64 (x : B64) : Datum := binary64.unpack x.msb (x.toNat % 2 ^ 63)

/-- `fromBits32` (rule R11). -/
def unpack32 (x : B32) : Datum := binary32.unpack x.msb (x.toNat % 2 ^ 31)

/-- A magnitude with its sign. -/
def signed (neg : Bool) (mag : ℚ) : ℚ := if neg then -mag else mag

/-- The rational a finite datum is (rule R11); none for infinities and NaN. -/
def Datum.value : Datum → Option ℚ
  | .nan => none
  | .inf _ => none
  | .fin neg mag => some (signed neg mag)

/-- The rational value of a binary64 pattern, if it is finite. -/
def value64 (x : B64) : Option ℚ := (unpack64 x).value

/-- The rational value of a binary32 pattern, if it is finite. -/
def value32 (x : B32) : Option ℚ := (unpack32 x).value

/-- `isNaN` of a binary64 pattern (rule R12). -/
def isNaN64 (x : B64) : Bool := unpack64 x = .nan

/-- `isNaN` of a binary32 pattern (rule R12). -/
def isNaN32 (x : B32) : Bool := unpack32 x = .nan

/-- The floor of the binary logarithm of `n / d`, for positive `n` and `d`. -/
def ilog2 (n d : Nat) : Int :=
  let k : Int := (Nat.log2 n : Int) - (Nat.log2 d : Int)
  if n * 2 ^ (-k).toNat < d * 2 ^ k.toNat then k - 1 else k

/-- `a / b` rounded to the nearest integer, ties to even. -/
def rneDiv (a b : Nat) : Nat :=
  if 2 * (a % b) < b then a / b
  else if b < 2 * (a % b) then a / b + 1
  else if a / b % 2 = 0 then a / b
  else a / b + 1

/-- A magnitude rounded to nearest, ties to even: the pattern without its sign bit. The magnitude is
counted in steps of the format's spacing around it, the count is rounded, and the pattern's order
being the values' order, a carry into the next exponent and into infinity needs no case of its own. -/
def Fmt.roundMag (F : Fmt) (r : ℚ) : Nat :=
  if r ≤ 0 then 0
  else
    let n := r.num.natAbs
    let d := r.den
    let q := max (ilog2 n d - F.fracBits) F.qMin
    let m := rneDiv (n * 2 ^ (-q).toNat) (d * 2 ^ q.toNat)
    min ((q - F.qMin).toNat * 2 ^ F.fracBits + m) F.infPat

/-- A binary64 pattern from its sign and the rest. -/
def pack64 (neg : Bool) (p : Nat) : B64 := BitVec.ofNat 64 (p + if neg then 2 ^ 63 else 0)

/-- A binary32 pattern from its sign and the rest. -/
def pack32 (neg : Bool) (p : Nat) : B32 := BitVec.ofNat 32 (p + if neg then 2 ^ 31 else 0)

/-- A rational rounded to binary64; a zero is `+0`. -/
def round64 (r : ℚ) : B64 :=
  if r < 0 then pack64 true (binary64.roundMag (-r)) else pack64 false (binary64.roundMag r)

/-- A NaN result of a binary64 operation: quiet, its sign and payload free (log 7). -/
def nan64 (a b : B64) : B64 := Config.nanBits64 a b ||| 0x7FF8000000000000#64

/-- A NaN result of a conversion to binary32: quiet, its sign and payload free (log 7). -/
def nan32 (a : B64) : B32 := Config.nanBits32 a ||| 0x7FC00000#32

/-- Infinity in binary64. -/
def inf64 (neg : Bool) : B64 := pack64 neg binary64.infPat

/-- The pattern with its sign bit inverted. -/
def neg64 (x : B64) : B64 := x ^^^ 0x8000000000000000#64

/-- `a +64 b` (rule R12). An exact zero sum is `-0` when both are negative and `+0` otherwise. -/
def add64 (a b : B64) : B64 :=
  match unpack64 a, unpack64 b with
  | .nan, _ => nan64 a b
  | _, .nan => nan64 a b
  | .inf s, .inf t => if s = t then inf64 s else nan64 a b
  | .inf s, .fin _ _ => inf64 s
  | .fin _ _, .inf t => inf64 t
  | .fin s x, .fin t y =>
    if signed s x + signed t y = 0 then pack64 (s && t) 0 else round64 (signed s x + signed t y)

/-- `a −64 b` (rule R12): the sum with the second operand's sign inverted. -/
def sub64 (a b : B64) : B64 := add64 a (neg64 b)

/-- `a ×64 b` (rule R12). -/
def mul64 (a b : B64) : B64 :=
  match unpack64 a, unpack64 b with
  | .nan, _ => nan64 a b
  | _, .nan => nan64 a b
  | .inf s, .inf t => inf64 (s ^^ t)
  | .inf s, .fin t y => if y = 0 then nan64 a b else inf64 (s ^^ t)
  | .fin s x, .inf t => if x = 0 then nan64 a b else inf64 (s ^^ t)
  | .fin s x, .fin t y => pack64 (s ^^ t) (binary64.roundMag (x * y))

/-- `a ÷64 b` (rule R12). -/
def div64 (a b : B64) : B64 :=
  match unpack64 a, unpack64 b with
  | .nan, _ => nan64 a b
  | _, .nan => nan64 a b
  | .inf _, .inf _ => nan64 a b
  | .inf s, .fin t _ => inf64 (s ^^ t)
  | .fin s _, .inf t => pack64 (s ^^ t) 0
  | .fin s x, .fin t y =>
    if y = 0 then (if x = 0 then nan64 a b else inf64 (s ^^ t))
    else pack64 (s ^^ t) (binary64.roundMag (x / y))

/-- `rne32(x)`, the conversion to binary32 (rule R12). -/
def rne32 (x : B64) : B32 :=
  match unpack64 x with
  | .nan => nan32 x
  | .inf s => pack32 s binary32.infPat
  | .fin s m => pack32 s (binary32.roundMag m)

/-- The order of data, false when either side is NaN; `-0` and `+0` are equal (rule R12). -/
def Datum.lt : Datum → Datum → Bool
  | .nan, _ => false
  | _, .nan => false
  | .inf s, .inf t => s && !t
  | .inf s, .fin _ _ => s
  | .fin _ _, .inf t => !t
  | .fin s x, .fin t y => decide (signed s x < signed t y)

/-- `x <64 y` (rule R12). -/
def lt64 (x y : B64) : Bool := (unpack64 x).lt (unpack64 y)

end Sys2Proof.Machine
end

