-- ==== Sys2Proof/Machine/Tables.lean ====
section
/-! DEFINITION. The default note table, "the table this hardware holds" (rule R132, log 10). -/

namespace Sys2Proof.Machine

/-- `ET_HZ[0]` to `ET_HZ[11]` (rule R132). -/
def etRow0 : List B64 :=
  [0x40205A0250C2B956#64, 0x402152EC0E758E6F#64, 0x40225AA2E3AF0B21#64, 0x4023720820155764#64,
   0x40249A0A791E127B#64, 0x4025D3A6D600CABC#64, 0x40271FE927CA0DE9#64, 0x40287FED4E47ADFF#64,
   0x4029F4E00A91D08E#64, 0x402B800000000000#64, 0x402D229EC465C8A2#64, 0x402EDE22007F791A#64]

/-- `ET_HZ[12]` to `ET_HZ[23]` (rule R132). -/
def etRow1 : List B64 :=
  [0x40305A0250C2B956#64, 0x403152EC0E758E6F#64, 0x40325AA2E3AF0B21#64, 0x4033720820155764#64,
   0x40349A0A791E127B#64, 0x4035D3A6D600CABC#64, 0x40371FE927CA0DE9#64, 0x40387FED4E47ADFF#64,
   0x4039F4E00A91D08E#64, 0x403B800000000000#64, 0x403D229EC465C8A2#64, 0x403EDE22007F791A#64]

/-- `ET_HZ[24]` to `ET_HZ[35]` (rule R132). -/
def etRow2 : List B64 :=
  [0x40405A0250C2B956#64, 0x404152EC0E758E6F#64, 0x40425AA2E3AF0B21#64, 0x4043720820155764#64,
   0x40449A0A791E127B#64, 0x4045D3A6D600CABC#64, 0x40471FE927CA0DE9#64, 0x40487FED4E47ADFF#64,
   0x4049F4E00A91D08E#64, 0x404B800000000000#64, 0x404D229EC465C8A2#64, 0x404EDE22007F791A#64]

/-- `ET_HZ[36]` to `ET_HZ[47]` (rule R132). -/
def etRow3 : List B64 :=
  [0x40505A0250C2B956#64, 0x405152EC0E758E6F#64, 0x40525AA2E3AF0B21#64, 0x4053720820155764#64,
   0x40549A0A791E127B#64, 0x4055D3A6D600CABC#64, 0x40571FE927CA0DE9#64, 0x40587FED4E47ADFF#64,
   0x4059F4E00A91D08E#64, 0x405B800000000000#64, 0x405D229EC465C8A2#64, 0x405EDE22007F791A#64]

/-- `ET_HZ[48]` to `ET_HZ[59]` (rule R132). -/
def etRow4 : List B64 :=
  [0x40605A0250C2B956#64, 0x406152EC0E758E6F#64, 0x40625AA2E3AF0B21#64, 0x4063720820155764#64,
   0x40649A0A791E127B#64, 0x4065D3A6D600CABC#64, 0x40671FE927CA0DE9#64, 0x40687FED4E47ADFF#64,
   0x4069F4E00A91D08E#64, 0x406B800000000000#64, 0x406D229EC465C8A2#64, 0x406EDE22007F791A#64]

/-- `ET_HZ[60]` to `ET_HZ[71]` (rule R132). -/
def etRow5 : List B64 :=
  [0x40705A0250C2B956#64, 0x407152EC0E758E6F#64, 0x40725AA2E3AF0B21#64, 0x4073720820155764#64,
   0x40749A0A791E127B#64, 0x4075D3A6D600CABC#64, 0x40771FE927CA0DE9#64, 0x40787FED4E47ADFF#64,
   0x4079F4E00A91D08E#64, 0x407B800000000000#64, 0x407D229EC465C8A2#64, 0x407EDE22007F791A#64]

/-- `ET_HZ[72]` to `ET_HZ[83]` (rule R132). -/
def etRow6 : List B64 :=
  [0x40805A0250C2B956#64, 0x408152EC0E758E6F#64, 0x40825AA2E3AF0B21#64, 0x4083720820155764#64,
   0x40849A0A791E127B#64, 0x4085D3A6D600CABC#64, 0x40871FE927CA0DE9#64, 0x40887FED4E47ADFF#64,
   0x4089F4E00A91D08E#64, 0x408B800000000000#64, 0x408D229EC465C8A2#64, 0x408EDE22007F791A#64]

/-- `ET_HZ[84]` to `ET_HZ[95]` (rule R132). -/
def etRow7 : List B64 :=
  [0x40905A0250C2B956#64, 0x409152EC0E758E6F#64, 0x40925AA2E3AF0B21#64, 0x4093720820155764#64,
   0x40949A0A791E127B#64, 0x4095D3A6D600CABC#64, 0x40971FE927CA0DE9#64, 0x40987FED4E47ADFF#64,
   0x4099F4E00A91D08E#64, 0x409B800000000000#64, 0x409D229EC465C8A2#64, 0x409EDE22007F791A#64]

/-- `ET_HZ[96]` to `ET_HZ[107]` (rule R132). -/
def etRow8 : List B64 :=
  [0x40A05A0250C2B956#64, 0x40A152EC0E758E6F#64, 0x40A25AA2E3AF0B21#64, 0x40A3720820155764#64,
   0x40A49A0A791E127B#64, 0x40A5D3A6D600CABC#64, 0x40A71FE927CA0DE9#64, 0x40A87FED4E47ADFF#64,
   0x40A9F4E00A91D08E#64, 0x40AB800000000000#64, 0x40AD229EC465C8A2#64, 0x40AEDE22007F791A#64]

/-- `ET_HZ[108]` to `ET_HZ[119]` (rule R132). -/
def etRow9 : List B64 :=
  [0x40B05A0250C2B956#64, 0x40B152EC0E758E6F#64, 0x40B25AA2E3AF0B21#64, 0x40B3720820155764#64,
   0x40B49A0A791E127B#64, 0x40B5D3A6D600CABC#64, 0x40B71FE927CA0DE9#64, 0x40B87FED4E47ADFF#64,
   0x40B9F4E00A91D08E#64, 0x40BB800000000000#64, 0x40BD229EC465C8A2#64, 0x40BEDE22007F791A#64]

/-- `ET_HZ[120]` to `ET_HZ[127]` (rule R132). -/
def etRow10 : List B64 :=
  [0x40C05A0250C2B956#64, 0x40C152EC0E758E6F#64, 0x40C25AA2E3AF0B21#64, 0x40C3720820155764#64,
   0x40C49A0A791E127B#64, 0x40C5D3A6D600CABC#64, 0x40C71FE927CA0DE9#64, 0x40C87FED4E47ADFF#64]

/-- The default `ET_HZ`, 128 entries in the order of the notes, transcribed from rule R132's table. -/
def etTable : List B64 :=
  etRow0 ++ etRow1 ++ etRow2 ++ etRow3 ++ etRow4 ++ etRow5 ++ etRow6 ++ etRow7 ++ etRow8 ++ etRow9 ++ etRow10

/-- `ET_HZ[n]` of this hardware (rule R132). -/
def etHzDefault (n : Note) : B64 := etTable.getD n.toNat 0

end Sys2Proof.Machine
end

