-- ==== Sys2Proof/Machine/Sine.lean ====
section
/-! DEFINITION. The default `SIN64`, "the binary64 datum nearest to the real sine of the exact value"
(rule R102, log 9): an exact rational enclosure of the real sine, whose two ends are rounded. -/

namespace Sys2Proof.Machine

/-- `n` terms of the sine's power series, from the term `t` of degree `2i+1` on; `x2` is the square of
the argument. -/
def sinSeries (x2 : ℚ) : Nat → ℚ → Nat → ℚ
  | 0, _, _ => 0
  | n + 1, t, i => t + sinSeries x2 n (-(t * x2) / (((2 * i + 2) * (2 * i + 3) : Nat) : ℚ)) (i + 1)

/-- The power series of the sine at `x`, `n` terms. -/
def sinPoly (n : Nat) (x : ℚ) : ℚ := sinSeries (x * x) n x 0

/-- The magnitude of the term of degree `2n+1`, which bounds what `sinPoly n` leaves out. -/
def sinRest (n : Nat) (x : ℚ) : ℚ := |x| ^ (2 * n + 1) / ((2 * n + 1).factorial : ℚ)

/-- A lower bound of the real sine of `x`. -/
def sinLo (n : Nat) (x : ℚ) : ℚ := max (-1) (sinPoly n x - sinRest n x)

/-- An upper bound of the real sine of `x`. -/
def sinHi (n : Nat) (x : ℚ) : ℚ := min 1 (sinPoly n x + sinRest n x)

/-- The rounding of the real sine of `x`, when the bounds of `n` terms round to the same datum. -/
def sinDecidedAt (n : Nat) (x : ℚ) : Option B64 :=
  if round64 (sinLo n x) = round64 (sinHi n x) then some (round64 (sinLo n x)) else none

/-- The first rounding decided by one of the given numbers of terms. -/
def sinDecidedBy (x : ℚ) : List Nat → Option B64
  | [] => none
  | n :: ns =>
    match sinDecidedAt n x with
    | some r => some r
    | none => sinDecidedBy x ns

/-- The numbers of terms tried. On [0, `TWO_PI`) the last leaves out less than 2^-300. -/
def sinTerms : List Nat := [2, 5, 10, 20, 36, 56]

/-- The rounding of the real sine of `x`, where an enclosure decides it. -/
def sinDecided (x : ℚ) : Option B64 := sinDecidedBy x sinTerms

/-- A free value of `SIN64`, kept to what property S1 of rule R102 allows: finite and in [-1, 1]. -/
def sinFree (x : B64) : B64 :=
  match value64 (Config.sinBits x) with
  | some v => if -1 ≤ v ∧ v ≤ 1 then Config.sinBits x else 0
  | none => 0

/-- `SIN64` of this hardware (rule R102): the correctly rounded sine where the enclosure decides it. -/
def sin64Default (x : B64) : B64 :=
  match value64 x with
  | some v => (sinDecided v).getD (sinFree x)
  | none => sinFree x

/-- The parameters of this hardware: "the default" of rules R102 and R132. -/
def hardware : Config.Params := ⟨etHzDefault, sin64Default⟩

end Sys2Proof.Machine
end

