-- ==== Sys2Proof/Machine/Operands.lean ====
section
/-! DEFINITION. What the commands compute from their operands: the note clamp, the sample-rate clamp,
the selector decode, the increment and the wrap. -/

namespace Sys2Proof.Machine

/-- The note of `NOTEON`: 128..255 clamp to 127 (rules R73, R133). -/
def clampNote (n : BitVec 8) : Note := if 127 < n.toNat then 127 else n.setWidth 7

/-- Whether `NOTEON` clamps its note (rule R133). -/
def noteClamped (n : BitVec 8) : Bool := 127 < n.toNat

/-- `clampSR` (rule R162): the rate limited to [`SR_MIN`, `SR_MAX`], and whether it was. -/
def clampSr (x : B64) : B64 × Bool :=
  if lt64 x Config.srMin then (Config.srMin, true)
  else if lt64 Config.srMax x then (Config.srMax, true)
  else (x, false)

/-- The waveform of a nearest integer 0..4 (rules R80, R100). -/
def waveOfInt (k : Int) : Wave :=
  if k ≤ 0 then .sine
  else if k = 1 then .saw
  else if k = 2 then .square
  else if k = 3 then .tri
  else .noise

/-- `SEL` (rule R100): the waveform nearest to the parameter's value, ties upward, limited to 0..4; and
whether the value was not exactly one of 0, 1, 2, 3, 4. -/
def sel (p : B32) : Wave × Bool :=
  match unpack32 p with
  | .nan => (.sine, true)
  | .inf neg => (if neg then .sine else .noise, true)
  | .fin neg mag =>
    let w := signed neg mag
    if w ≤ 0 then (.sine, w ≠ 0)
    else if 4 ≤ w then (.noise, w ≠ 4)
    else
      let k := (w + 1 / 2).floor
      (waveOfInt k, w ≠ (k : ℚ))

/-- `incr` (rule R130): the product first, then the quotient, each rounded. -/
def incr (f sr : B64) : B64 := div64 (mul64 Config.twoPi f) sr

/-- The rational value of `TWO_PI`, 884279719003555 / 2^47 (rule R15). -/
def twoPiValue : ℚ := 884279719003555 / 2 ^ 47

/-- `wrap` (rule R131): the exact remainder by `TWO_PI` of a finite sum that is not negative. Its
result is always a datum, so the rounding changes nothing; a zero result is `+0`. Outside that
domain the result is free (log 8). -/
def wrap (s : B64) : B64 :=
  match value64 s with
  | some v =>
    if 0 ≤ v then round64 (v - (v / twoPiValue).floor * twoPiValue) else Config.wrapOutside s
  | none => Config.wrapOutside s

end Sys2Proof.Machine
end

