-- ==== Sys2Proof/Machine/Ops.lean ====
section
/-! DEFINITION. The named operations over the state: slot access, raising an event and clearing events,
the status and read-back views, and reset. -/

namespace Sys2Proof.Machine

/-- Slot `v` of the slot file (rules R3, R72). -/
def Slots.get (b : Slots) (v : SlotIx) : Slot :=
  match v.toNat with
  | 0 => b.v0
  | 1 => b.v1
  | 2 => b.v2
  | 3 => b.v3
  | 4 => b.v4
  | 5 => b.v5
  | 6 => b.v6
  | _ => b.v7

/-- Every slot changed by a function of its own index and its own contents (rules R16, R136). -/
def Slots.mapIx (f : SlotIx → Slot → Slot) (b : Slots) : Slots :=
  ⟨f 0 b.v0, f 1 b.v1, f 2 b.v2, f 3 b.v3, f 4 b.v4, f 5 b.v5, f 6 b.v6, f 7 b.v7⟩

/-- One slot changed, the others kept. -/
def Slots.modify (v : SlotIx) (f : Slot → Slot) (b : Slots) : Slots :=
  b.mapIx fun u x => if u = v then f x else x

/-- Slot `v` of a state. -/
def State.slot (s : State) (v : SlotIx) : Slot := s.slots.get v

/-- One slot of the state changed. -/
def State.modifySlot (v : SlotIx) (f : Slot → Slot) (s : State) : State :=
  { s with slots := s.slots.modify v f }

/-- Every slot of the state changed. -/
def State.mapSlots (f : SlotIx → Slot → Slot) (s : State) : State :=
  { s with slots := s.slots.mapIx f }

/-- The active bits, bit `v` for slot `v` (rules R24, R31). -/
def State.activeMask (s : State) : BitVec 8 :=
  BitVec.ofBool s.slots.v7.active ++ BitVec.ofBool s.slots.v6.active ++
    BitVec.ofBool s.slots.v5.active ++ BitVec.ofBool s.slots.v4.active ++
    BitVec.ofBool s.slots.v3.active ++ BitVec.ofBool s.slots.v2.active ++
    BitVec.ofBool s.slots.v1.active ++ BitVec.ofBool s.slots.v0.active

/-- The `STATUS` view (rule R31): reserved 63:23, sticky 22:16, reserved 15:9, `PREPARED` 8, `ACTIVE`
7:0. -/
def State.status (s : State) : BitVec 64 :=
  0#41 ++ s.sticky ++ 0#7 ++ BitVec.ofBool s.prepared ++ s.activeMask

/-- The output latch `out[v]`, equal to `OUT[v]` (rule R34, log 12). -/
def State.outPort (s : State) (v : SlotIx) : B32 := (s.slot v).out

/-- `raise E`, and `set(STATUS.F)` for the informational bits (rules R13, R201, R203): the bit is set,
and for codes 16..19 the model's record notes the fault (rule R206). This is the one operation by
which the block takes an abnormal event: nothing is saved and no control transfers (rule R200). -/
def State.raise (e : Event) (s : State) : State :=
  { s with sticky := setSticky e s.sticky, faults := s.faults.after e }

/-- `set(STATUS.F)` under a condition. -/
def State.raiseIf (c : Bool) (e : Event) (s : State) : State := if c then s.raise e else s

/-- The clearing of events, the only way back from one but reset (rules R166, R205). The model's record
keeps them (rule R206). -/
def State.clearEvents (m : BitVec 8) (s : State) : State :=
  { s with sticky := clearSticky m s.sticky }

/-- An illegal command word: `ERR_ILLEGAL` and no other effect (rules R83, R202). -/
def State.illegalCommand (s : State) : State := s.raise .errIllegal

/-- Whether a read-back address is reserved, 0x2D..0xFF (rule R52). -/
def reservedAddr (a : BitVec 8) : Bool := 0x2D ≤ a.toNat

/-- `Reg(a)`, the read-back map, narrower registers zero-extended (rule R51). The low three bits of an
address below 0x28 are the slot. -/
def State.reg (s : State) (a : BitVec 8) : BitVec 64 :=
  let x := s.slot (a.setWidth 3)
  if a.toNat < 0x08 then x.phase
  else if a.toNat < 0x10 then x.freq
  else if a.toNat < 0x18 then x.inc
  else if a.toNat < 0x20 then x.note.setWidth 64
  else if a.toNat < 0x28 then x.out.setWidth 64
  else if a.toNat = 0x28 then s.sr
  else if a.toNat = 0x29 then s.wavePend.setWidth 64
  else if a.toNat = 0x2A then s.waveCur.code.setWidth 64
  else if a.toNat = 0x2B then s.status
  else if a.toNat = 0x2C then Config.ident
  else 0

/-- Reset, by `rst` or by `SWRESET` (rules R37, R167, R230): every piece of the block's state takes its
reset value. The events still to come are the outside's, the fault record is cleared by no step
(rule R206), and the noise draws go on, since `NOISE[v]` becomes unspecified (logs 3, 4, 5). -/
def State.resetBlock (s : State) : State :=
  { State.reset with faults := s.faults, noiseCtr := s.noiseCtr, inputs := s.inputs }

/-- The rate accepted by `PREPARE`: `SR`, `PREPARED` and every increment written (rule R161). -/
def State.setRate (sr : B64) (s : State) : State :=
  { s.mapSlots (fun _ x => { x with inc := incr x.freq sr }) with sr := sr, prepared := true }

/-- The increment a slot of frequency `f` has: `incr(f, SR)` once prepared and `+0` before (rules R22,
R133). -/
def State.incFor (s : State) (f : B64) : B64 := if s.prepared then incr f s.sr else 0

end Sys2Proof.Machine
end

