-- ==== Sys2Proof/Machine/Control.lean ====
section
/-! DEFINITION. The control commands: NOP, PREPARE, LATCH, READ, CLRERR, SWRESET, and the parameter
write SETWAVE. -/

namespace Sys2Proof.Machine

/-- NOP (rule R160). -/
def execNop (s : State) : Host.Outcome State Fault Refusal := .next s

/-- PREPARE (rule R161): a NaN rate raises `ERR_SR_NAN` and does nothing else; any other is clamped
(rule R162) and every increment recomputed. -/
def execPrepare (rate : B64) (s : State) : Host.Outcome State Fault Refusal :=
  if isNaN64 rate then .next (s.raise .errSrNan)
  else .next ((s.raiseIf (clampSr rate).2 .infSrClamp).setRate (clampSr rate).1)

/-- LATCH (rule R163). -/
def execLatch (s : State) : Host.Outcome State Fault Refusal :=
  .next { s.raiseIf (sel s.wavePend).2 .infWaveClamp with waveCur := (sel s.wavePend).1 }

/-- SETWAVE (rule R164): the pattern is stored unchanged. -/
def execSetwave (w : B32) (s : State) : Host.Outcome State Fault Refusal :=
  .next { s with wavePend := w }

/-- READ (rule R165): a reserved address gives 0 and raises `ERR_BADADDR` (rule R52). -/
def execRead (a : BitVec 8) (s : State) : Host.Outcome State Fault Refusal :=
  if reservedAddr a then .next { s.raise .errBadaddr with rdata := 0 }
  else .next { s with rdata := s.reg a }

/-- CLRERR (rule R166). A mask with bit 7 set is illegal: no bit is cleared and `ERR_ILLEGAL` is set
(log 11). -/
def execClrerr (m : BitVec 8) (s : State) : Host.Outcome State Fault Refusal :=
  if m.getLsbD 7 then .next s.illegalCommand else .next (s.clearEvents m)

/-- SWRESET (rule R167). -/
def execSwreset (s : State) : Host.Outcome State Fault Refusal := .next s.resetBlock

end Sys2Proof.Machine
end

