-- ==== Sys2Proof/Machine/Waveform.lean ====
section
/-! DEFINITION. The waveform generator: one sample function per waveform, `GEN`, the stage that applies
a waveform to every active slot, and the meanings of the five waveform operations. -/

namespace Sys2Proof.Machine

/-- `SINE(p)` (rule R102). -/
def sineSample (P : Config.Params) (p : B64) : B32 := rne32 (P.sin64 p)

/-- 1.0, 2.0, 3.0 and 4.0 in binary64. -/
def one64 : B64 := 0x3FF0000000000000#64
def two64 : B64 := 0x4000000000000000#64
def three64 : B64 := 0x4008000000000000#64
def four64 : B64 := 0x4010000000000000#64

/-- +1.0 and −1.0 in binary32 (rule R104). -/
def plusOne32 : B32 := 0x3F800000#32
def minusOne32 : B32 := 0xBF800000#32

/-- `SAW(p)` (rule R103). -/
def sawSample (p : B64) : B32 := rne32 (sub64 (mul64 two64 (div64 p Config.twoPi)) one64)

/-- `SQUARE(p)` (rule R104). -/
def squareSample (p : B64) : B32 := if lt64 p Config.pi then plusOne32 else minusOne32

/-- `TRI(p)` (rule R105): rising while `p <64 PI`, falling otherwise. -/
def triSample (p : B64) : B32 :=
  let q := mul64 four64 (div64 p Config.twoPi)
  rne32 (if lt64 p Config.pi then sub64 q one64 else sub64 three64 q)

/-- The set a noise sample is drawn from: not NaN, −1 ≤ x < 1 (rule R106). -/
def admissibleNoise (d : B32) : Bool :=
  match value32 d with
  | some v => decide (-1 ≤ v ∧ v < 1)
  | none => false

/-- `NOISE()` (rules R14, R106): a free element of the admissible set, one for each slot and each draw
number (log 5). Every admissible pattern is a value of it. -/
def noiseSample (k : Nat) (v : SlotIx) : B32 :=
  if admissibleNoise (Config.noiseBits k v) then Config.noiseBits k v else 0

/-- `GEN(code, p)` (rule R101), with the noise draw of the slot as an argument. -/
def gen (P : Config.Params) (w : Wave) (p : B64) (d : B32) : B32 :=
  match w with
  | .sine => sineSample P p
  | .saw => sawSample p
  | .square => squareSample p
  | .tri => triSample p
  | .noise => d

/-- The waveform operation `TICK` applies: every active slot's output becomes the waveform's sample at
its phase, and the other slots keep theirs (rules R101, R135). Noise takes one draw per active slot,
so its draw number moves on (rule R106). -/
def State.generate (P : Config.Params) (w : Wave) (s : State) : State :=
  { s.mapSlots (fun v x => if x.active then { x with out := gen P w x.phase (noiseSample s.noiseCtr v) } else x) with
    noiseCtr := if w = .noise then s.noiseCtr + 1 else s.noiseCtr }

/-- SINE (rule R102, log 1). -/
def execSine (s : State) : Host.Outcome State Fault Refusal := .next (s.generate hardware .sine)

/-- SAW (rule R103, log 1). -/
def execSaw (s : State) : Host.Outcome State Fault Refusal := .next (s.generate hardware .saw)

/-- SQUARE (rule R104, log 1). -/
def execSquare (s : State) : Host.Outcome State Fault Refusal := .next (s.generate hardware .square)

/-- TRI (rule R105, log 1). -/
def execTri (s : State) : Host.Outcome State Fault Refusal := .next (s.generate hardware .tri)

/-- NOISE (rule R106, log 1). -/
def execNoise (s : State) : Host.Outcome State Fault Refusal := .next (s.generate hardware .noise)

end Sys2Proof.Machine
end

