-- ==== Sys2Proof/Machine/Voice.lean ====
section
/-! DEFINITION. The voice commands: NOTEON, KILL and TICK. -/

namespace Sys2Proof.Machine

/-- `NOTEON` with the table `P.etHz` (rule R133). -/
def State.noteOn (P : Config.Params) (v : SlotIx) (n : BitVec 8) (s : State) : State :=
  (s.raiseIf (noteClamped n) .infNoteClamp).modifySlot v fun x =>
    { x with
      note := clampNote n
      freq := P.etHz (clampNote n)
      inc := s.incFor (P.etHz (clampNote n))
      phase := 0
      active := true }

/-- NOTEON (rule R133). -/
def execNoteon (v : SlotIx) (n : BitVec 8) (s : State) : Host.Outcome State Fault Refusal :=
  .next (s.noteOn hardware v n)

/-- KILL (rule R134). -/
def execKill (v : SlotIx) (s : State) : Host.Outcome State Fault Refusal :=
  .next (s.modifySlot v fun x => { x with active := false })

/-- The first part of a lane of `TICK` (rule R135): an active slot's phase advances and wraps; an
inactive slot's output becomes `+0`. -/
def advanceLane (x : Slot) : Slot :=
  if x.active then { x with phase := wrap (add64 x.phase x.inc) } else { x with out := 0 }

/-- The first part of every lane, with `out_valid[v]` 1 for the active slots and 0 for the others
(rules R34, R135). -/
def State.advance (s : State) : State :=
  { s.mapSlots (fun _ x => advanceLane x) with outValid := s.activeMask }

/-- `TICK` with the sine `P.sin64` (rule R135): unprepared, `ERR_UNPREP` and `out_valid` cleared;
otherwise every lane advances and the waveform operation selected by `WAVE_CUR` is applied. -/
def State.tick (P : Config.Params) (s : State) : State :=
  if s.prepared then s.advance.generate P s.waveCur
  else { s.raise .errUnprep with outValid := 0 }

/-- TICK (rule R135). -/
def execTick (s : State) : Host.Outcome State Fault Refusal := .next (s.tick hardware)

end Sys2Proof.Machine
end

