-- ==== Sys2Proof/Machine/Dispatch.lean ====
section
/-! DEFINITION. Which meaning each instruction has: one arm per constructor. -/

namespace Sys2Proof.Machine

def exec (i : Instr) (s : State) : Host.Outcome State Fault Refusal :=
  match i with
  | .nop => Sys2Proof.Machine.execNop s
  | .prepare rate => Sys2Proof.Machine.execPrepare rate s
  | .latch => Sys2Proof.Machine.execLatch s
  | .noteon v n => Sys2Proof.Machine.execNoteon v n s
  | .kill v => Sys2Proof.Machine.execKill v s
  | .tick => Sys2Proof.Machine.execTick s
  | .read a => Sys2Proof.Machine.execRead a s
  | .clrerr m => Sys2Proof.Machine.execClrerr m s
  | .swreset => Sys2Proof.Machine.execSwreset s
  | .setwave w => Sys2Proof.Machine.execSetwave w s
  | .sine => Sys2Proof.Machine.execSine s
  | .saw => Sys2Proof.Machine.execSaw s
  | .square => Sys2Proof.Machine.execSquare s
  | .tri => Sys2Proof.Machine.execTri s
  | .noise => Sys2Proof.Machine.execNoise s

end Sys2Proof.Machine
end

