-- ==== Sys2Proof/Machine/Serve.lean ====
section
/-! DEFINITION. What the block does with each event presented to it, and how a table row's instruction
is presented. -/

namespace Sys2Proof.Machine

/-- A command word: a legal one runs its instruction, an illegal one sets `ERR_ILLEGAL` only (rules
R56, R83, R202). -/
def serveCommand (cmd : BitVec 32) (data : BitVec 64) (s : State) : Host.Outcome State Fault Refusal :=
  match decodeCommand cmd data with
  | .ok i => exec i s
  | .error _ => .next s.illegalCommand

/-- A parameter write: address 0 runs `SETWAVE`; the others belong to other blocks and change nothing
here (rules R78, R79). -/
def serveParam (addr : BitVec 4) (wdata : BitVec 32) (s : State) : Host.Outcome State Fault Refusal :=
  match decodeParam addr wdata with
  | .ok i => exec i s
  | .error _ => .next s

/-- One event as one atomic step (rules R56, R57, R58, R230). -/
def serve (e : Input) (s : State) : Host.Outcome State Fault Refusal :=
  match e with
  | .command cmd data => serveCommand cmd data s
  | .param addr wdata => serveParam addr wdata s
  | .rst => .next s.resetBlock

/-- The oldest event is taken and served; with none presented the block waits (rule R231, log 3). -/
def takeInput (s : State) : Host.Outcome State Fault Refusal :=
  match s.inputs with
  | [] => .next s
  | e :: rest => serve e { s with inputs := rest }

/-- A prepared state, so that `TICK` reaches its lanes: unchanged if prepared, and otherwise prepared at
`SR_MIN` (log 3). -/
def State.ensurePrepared (s : State) : State :=
  if s.prepared then s else s.setRate Config.srMin

/-- The state in which the next step runs what `ws` carries: a command or a parameter write is presented
next; a selector code is put into `WAVE_CUR` and a `TICK` presented next, which applies it (log 3). -/
def State.present (ws : Words) (s : State) : State :=
  match ws with
  | .command cmd data => { s with inputs := .command cmd data :: s.inputs }
  | .param addr wdata => { s with inputs := .param addr wdata :: s.inputs }
  | .select code =>
    { s.ensurePrepared with
      waveCur := (Wave.ofCode code).getD s.waveCur
      inputs := .command (commandWord 0x5 0 0) 0 :: s.inputs }

end Sys2Proof.Machine
end

