-- ==== Sys2Proof/Machine/Step.lean ====
section
/-! DEFINITION. One step of the machine, and the host's way to present one instruction. -/

namespace Sys2Proof.Machine

/-- One step: one command, one parameter write or one reset (rules R58, R250). -/
def step (s : State) : Host.Outcome State Fault Refusal := takeInput s

/-- `s` with a table row's instruction where the next step takes it from (logs 2, 3). -/
def State.withFetchWord (s : State) (nbits w : Nat) : State := s.present (tableWords nbits w)

end Sys2Proof.Machine
end

