-- ==== Sys2Proof/Safety.lean ====
section
/-! DEFINITION. The terms claims use: the invariants of rule R38, the properties of admissible
parameters (rules R102, R132), and runs without a recorded fault (rule R206). -/

namespace Sys2Proof.Machine

/-- `+0 ≤ x <64 TWO_PI`, finite and not `−0` (rules R23, R38 item 1). -/
def phaseInRange (x : B64) : Bool :=
  match unpack64 x with
  | .nan => false
  | .inf _ => false
  | .fin neg mag => !neg && decide (mag < twoPiValue)

/-- Finite, not negative and not `−0` (rule R38 item 3). -/
def nonNegative64 (x : B64) : Bool :=
  match unpack64 x with
  | .nan => false
  | .inf _ => false
  | .fin neg _ => !neg

/-- Finite and in [−1, 1] (rules R38 item 4, R107). -/
def inUnit32 (d : B32) : Bool :=
  match value32 d with
  | some v => decide (-1 ≤ v ∧ v ≤ 1)
  | none => false

/-- Finite and in [−1, 1], in binary64 (rule R102, property S1). -/
def inUnit64 (x : B64) : Bool :=
  match value64 x with
  | some v => decide (-1 ≤ v ∧ v ≤ 1)
  | none => false

/-- Finite and in [`SR_MIN`, `SR_MAX`] (rules R38 item 6, R162). -/
def rateInRange (x : B64) : Bool :=
  match value64 x with
  | some v => decide (1 ≤ v ∧ v ≤ 1048576)
  | none => false

/-- What rule R38 says of one slot, with the equalities of rules R21 and R22: the phase in range, the
frequency `+0` or the table's entry for the slot's note, the increment `incr(FREQ, SR)` or `+0` and
not negative, the output in [−1, 1]; and an active slot has a note's frequency (rule R135). -/
structure Slot.Good (P : Config.Params) (s : State) (x : Slot) : Prop where
  phase : phaseInRange x.phase = true
  freq : x.freq = 0 ∨ x.freq = P.etHz x.note
  inc : x.inc = s.incFor x.freq
  incNonNegative : nonNegative64 x.inc = true
  out : inUnit32 x.out = true
  active : x.active = true → x.freq = P.etHz x.note

/-- Rule R38's invariants of the whole block. Item 5 is the type of `WAVE_CUR`. -/
structure State.Inv (P : Config.Params) (s : State) : Prop where
  slots : ∀ v, (s.slot v).Good P s
  rate : if s.prepared then rateInRange s.sr = true else s.sr = 0

/-- No fault is recorded: the premise a claim about a run may take (rule R206). -/
def State.NoFault (s : State) : Prop := s.faults = ⟨false, false, false, false⟩

/-- The unit in the last place of a positive finite datum: the format's spacing at it. -/
def ulp64 (x : B64) : ℚ :=
  scale2 1 (binary64.qMin + max (((x.toNat % 2 ^ 63) / 2 ^ 52 : Nat) : Int) 1 - 1)

/-- The properties E1 to E3 of an admissible table (rule R132) and S1, S2 of an admissible sine (rule
R102). The real value is `440 × 2^((n − 69)/12)`. -/
structure Admissible (P : Config.Params) : Prop where
  e1 : P.etHz 69 = 0x407B800000000000#64
  e2Positive : ∀ n, ∃ v, value64 (P.etHz n) = some v ∧ 0 < v
  e2Increasing : ∀ m n : Note, m < n → lt64 (P.etHz m) (P.etHz n) = true
  e3 : ∀ n : Note, ∃ v, value64 (P.etHz n) = some v ∧
    |(v : ℝ) - 440 * (2 : ℝ) ^ (((n.toNat : ℝ) - 69) / 12)| ≤ 2 * (ulp64 (P.etHz n) : ℝ)
  s1 : ∀ x, phaseInRange x = true → inUnit64 (P.sin64 x) = true
  s2 : P.sin64 0 = 0

/-- A binary64 datum is a nearest one to a real: finite, with no finite datum nearer. -/
def NearestTo (x : B64) (r : ℝ) : Prop :=
  ∃ v, value64 x = some v ∧ ∀ y w, value64 y = some w → |(v : ℝ) - r| ≤ |(w : ℝ) - r|

/-- What a claim about any parameters needs of them, implied by E2, E3 and S1: positive finite
frequencies of at most 16384 hertz, and a sine in [−1, 1] on the range of the phase. -/
structure Usable (P : Config.Params) : Prop where
  frequency : ∀ n, ∃ v, value64 (P.etHz n) = some v ∧ 0 < v ∧ v ≤ 16384
  sine : ∀ x, phaseInRange x = true → inUnit64 (P.sin64 x) = true

/-- The conditions of rule R83, as the rule lists them. -/
def IllegalWord (cmd : BitVec 32) : Prop :=
  9 ≤ (opField cmd).toNat ∨ rsvField cmd ≠ 0 ∨
    (slotField cmd ≠ 0 ∧ opField cmd ≠ 0x3 ∧ opField cmd ≠ 0x4) ∨
    (immField cmd ≠ 0 ∧ (opField cmd = 0x0 ∨ opField cmd = 0x1 ∨ opField cmd = 0x2 ∨ opField cmd = 0x4 ∨
      opField cmd = 0x5 ∨ opField cmd = 0x8)) ∨
    ((immField cmd).getLsbD 7 = true ∧ opField cmd = 0x7)

/-- The sticky bits from `s` to `t`: bit `k` of `STATUS[22:16]` is set too when `c` holds, and every other
bit is kept (rules R31, R201). -/
def StickyAfter (s t : State) (k : Nat) (c : Bool) : Prop :=
  ∀ i < 7, t.sticky.getLsbD i = (s.sticky.getLsbD i || (decide (i = k) && c))

/-- A NaN pattern of binary64: the exponent all ones and the fraction not 0 (rule R53). -/
def NanPattern64 (x : B64) : Prop := x.extractLsb' 52 11 = 0x7FF#11 ∧ x.extractLsb' 0 52 ≠ 0#52

/-- A NaN pattern of binary32 (rule R53). -/
def NanPattern32 (x : B32) : Prop := x.extractLsb' 23 8 = 0xFF#8 ∧ x.extractLsb' 0 23 ≠ 0#23

end Sys2Proof.Machine
end

