-- ==== Sys2Proof/Certificates/Slice0/Obligations.lean ====
section
/-! DEFINITION. The statements for the provers, one per obligation of OBLIGATIONS.json. -/

open Sys2Proof Sys2Proof.Machine

/-! ### Encoding -/

/-- Rules R71, R77, R78, R80: the decoder reads back every well-formed instruction from its encoding. -/
def Obligations.DecodeOfEncode : Prop :=
  ∀ i : Instr, i.wellFormed = true → decode (encode i) = .ok i

/-- Rules R71, R76, R77: a command word has one meaning, and encoding that meaning gives the word back. -/
def Obligations.EncodeOfDecodedCommand : Prop :=
  ∀ (cmd : BitVec 32) (data : BitVec 64) (i : Instr), decodeCommand cmd data = .ok i →
    i.wellFormed = true ∧ encode i = .command cmd (if opField cmd = 0x1 then data else 0)

/-- Rule R77: a word is decoded as the row it matches under mask and match, at most one row matches any
word, and a word no row matches is illegal. -/
def Obligations.CommandDecodedByTableRow : Prop :=
  ∀ (cmd : BitVec 32) (data : BitVec 64),
    (∀ i, decodeCommand cmd data = .ok i →
      tableRow i ∈ commandRows ∧ cmd.toNat &&& (tableRow i).mask = (tableRow i).pattern) ∧
    (∀ r ∈ commandRows, cmd.toNat &&& r.mask = r.pattern →
      ∃ i, decodeCommand cmd data = .ok i ∧ tableRow i = r) ∧
    (∀ r ∈ commandRows, ∀ r' ∈ commandRows,
      cmd.toNat &&& r.mask = r.pattern → cmd.toNat &&& r'.mask = r'.pattern → r = r')

/-- Rule R83: the words the decoder rejects are exactly those the rule lists as illegal. -/
def Obligations.RejectedExactlyWhenIllegal : Prop :=
  ∀ (cmd : BitVec 32) (data : BitVec 64),
    (∃ e, decodeCommand cmd data = .error e) ↔ IllegalWord cmd

/-- Rules R83, R202: an illegal word sets `ERR_ILLEGAL` and nothing else of the block; the model's record
notes it (log 4), and the event is consumed (log 3). -/
def Obligations.IllegalWordOnlySetsErrIllegal : Prop :=
  ∀ (s : State) (cmd : BitVec 32) (data : BitVec 64) (rest : List Input),
    s.inputs = .command cmd data :: rest → IllegalWord cmd →
    ∃ t, step s = .next t ∧ StickyAfter s t 0 true ∧
      t.faults = { s.faults with illegal := true } ∧ t.inputs = rest ∧
      (∀ v, t.slot v = s.slot v ∧ t.outPort v = s.outPort v) ∧ t.sr = s.sr ∧ t.prepared = s.prepared ∧
      t.wavePend = s.wavePend ∧ t.waveCur = s.waveCur ∧ t.outValid = s.outValid ∧ t.rdata = s.rdata ∧
      t.noiseCtr = s.noiseCtr

/-- Rules R77, R80, R86: words written out from the encoding tables decode to what they stand for. -/
def Obligations.KnownWordsDecode : Prop :=
  decode (.command 0x00000000 5) = .ok .nop ∧
  decode (.command 0x10000000 0x40E5888000000000) = .ok (.prepare 0x40E5888000000000) ∧
  decode (.command 0x20000000 0) = .ok .latch ∧
  decode (.command 0x3000077F 0) = .ok (.noteon 7 127) ∧
  decode (.command 0x40000300 0) = .ok (.kill 3) ∧
  decode (.command 0x50000000 0) = .ok .tick ∧
  decode (.command 0x6000002C 0) = .ok (.read 0x2C) ∧
  decode (.command 0x70000049 0) = .ok (.clrerr 0x49) ∧
  decode (.command 0x80000000 0) = .ok .swreset ∧
  decode (.param 0 0x3FC00000) = .ok (.setwave 0x3FC00000) ∧
  decode (.select 1) = .ok .saw ∧ decode (.select 4) = .ok .noise ∧ decode (.select 5) = .error .unusedCode

/-- Rule R76: only `PREPARE` reads the data word, as its rate; every other command ignores it, whatever it
holds. -/
def Obligations.DataWordReadByPrepareOnly : Prop :=
  (∀ (cmd : BitVec 32) (d d' : BitVec 64), opField cmd ≠ 0x1 → decodeCommand cmd d = decodeCommand cmd d') ∧
  (∀ (cmd : BitVec 32) (d : BitVec 64) (i : Instr), opField cmd = 0x1 → decodeCommand cmd d = .ok i →
    i = .prepare d)

/-! ### Steps -/

/-- Rules R56, R57, R78, R231: a step takes the oldest event and runs exactly the instruction it decodes
to, on the state with that event consumed; with nothing presented the block waits. That the events
stand in a list of the state is the model's (log 3). -/
def Obligations.StepRunsDecodedInstruction : Prop :=
  (∀ (s : State) (cmd : BitVec 32) (data : BitVec 64) (rest : List Input) (i : Instr),
    s.inputs = .command cmd data :: rest → decodeCommand cmd data = .ok i →
    step s = exec i { s with inputs := rest }) ∧
  (∀ (s : State) (w : BitVec 32) (rest : List Input),
    s.inputs = .param 0 w :: rest → step s = exec (.setwave w) { s with inputs := rest }) ∧
  (∀ s : State, s.inputs = [] → step s = .next s)

/-- Rules R101, R135 and log 1: the step of a `TICK` of a prepared block advances the lanes and then runs
the waveform operation that `WAVE_CUR` selects. -/
def Obligations.TickStepRunsSelectedWaveform : Prop :=
  ∀ (s : State) (data : BitVec 64) (rest : List Input),
    s.inputs = .command 0x50000000 data :: rest → s.prepared = true →
    step s = exec s.waveCur.instr ({ s with inputs := rest } : State).advance

/-- Rule R79: a parameter write to another block's address changes no state and sets no bit. -/
def Obligations.ForeignParameterIgnored : Prop :=
  ∀ (s : State) (addr : BitVec 4) (w : BitVec 32) (rest : List Input),
    s.inputs = .param addr w :: rest → addr ≠ 0 → step s = .next { s with inputs := rest }

/-- Rules R37, R230: `rst` has the effect of `SWRESET`, and every piece of state takes its reset value. The
record, the draw counter and the events to come are the model's own (logs 3, 4, 5). -/
def Obligations.ResetInputEffect : Prop :=
  ∀ (s : State) (rest : List Input), s.inputs = .rst :: rest →
    ∃ t, step s = .next t ∧ exec .swreset { s with inputs := rest } = .next t ∧
      (∀ v, t.slot v = ⟨false, 0, 0, 0, 0, 0⟩ ∧ t.outPort v = 0) ∧ t.sr = 0 ∧ t.prepared = false ∧
      t.wavePend = 0 ∧ t.waveCur = .sine ∧ t.sticky = 0 ∧ t.outValid = 0 ∧ t.rdata = 0 ∧
      t.faults = s.faults ∧ t.noiseCtr = s.noiseCtr ∧ t.inputs = rest

/-- Rules R56, R200, R250: every step answers a next state, with the oldest event consumed, so that the
block takes the next command normally. -/
def Obligations.EveryStepGoesOn : Prop :=
  ∀ s : State, ∃ t, step s = .next t ∧ t.inputs = s.inputs.tail

/-- Rule R204: a step sets at most one bit of `STATUS` that was clear. -/
def Obligations.AtMostOneEventPerStep : Prop :=
  ∀ s t : State, step s = .next t → ∀ i < 7, ∀ j < 7,
    s.sticky.getLsbD i = false → t.sticky.getLsbD i = true →
    s.sticky.getLsbD j = false → t.sticky.getLsbD j = true → i = j

/-! ### Reset -/

/-- Rules R37, R231: the state after reset. -/
def Obligations.ResetValues : Prop :=
  (∀ v, (State.reset.slot v).active = false ∧ (State.reset.slot v).note = 0 ∧
    (State.reset.slot v).freq = 0x0000000000000000 ∧ (State.reset.slot v).inc = 0x0000000000000000 ∧
    (State.reset.slot v).phase = 0x0000000000000000 ∧ (State.reset.slot v).out = 0x00000000 ∧
    State.reset.outPort v = 0x00000000) ∧
  State.reset.sr = 0x0000000000000000 ∧ State.reset.prepared = false ∧
  State.reset.wavePend = 0x00000000 ∧ State.reset.waveCur.code = 0 ∧ State.reset.sticky = 0 ∧
  State.reset.status = 0 ∧ State.reset.outValid = 0 ∧ State.reset.rdata = 0x0000000000000000

/-- Rule R38: the invariants hold after reset, for any parameters. -/
def Obligations.ResetMeetsInvariants : Prop :=
  ∀ P : Config.Params, State.reset.Inv P

/-! ### Control commands -/

/-- Rule R160. -/
def Obligations.NopChangesNothing : Prop :=
  ∀ s : State, exec .nop s = .next s

/-- Rule R161: a NaN rate is refused and only sets `ERR_SR_NAN`; any other rate is clamped and every
increment recomputed, the phases and all else kept. -/
def Obligations.PrepareEffect : Prop :=
  ∀ (d : B64) (s : State),
    (NanPattern64 d → ∃ t, exec (.prepare d) s = .next t ∧ StickyAfter s t 1 true ∧
      (∀ v, t.slot v = s.slot v) ∧ t.sr = s.sr ∧ t.prepared = s.prepared ∧ t.wavePend = s.wavePend ∧
      t.waveCur = s.waveCur ∧ t.outValid = s.outValid ∧ t.rdata = s.rdata) ∧
    (¬ NanPattern64 d → ∃ t, exec (.prepare d) s = .next t ∧ StickyAfter s t 4 (clampSr d).2 ∧
      t.sr = (clampSr d).1 ∧ t.prepared = true ∧
      (∀ v, (t.slot v).inc = incr (s.slot v).freq (clampSr d).1 ∧ (t.slot v).phase = (s.slot v).phase ∧
        (t.slot v).freq = (s.slot v).freq ∧ (t.slot v).note = (s.slot v).note ∧
        (t.slot v).active = (s.slot v).active ∧ (t.slot v).out = (s.slot v).out) ∧
      t.wavePend = s.wavePend ∧ t.waveCur = s.waveCur ∧ t.outValid = s.outValid ∧ t.rdata = s.rdata)

/-- Rule R162: the rate limited to [1.0, 1048576.0], infinities included, and whether it was limited. -/
def Obligations.ClampSrLimitsRate : Prop :=
  (∀ (x : B64) (v : ℚ), value64 x = some v →
    (v < 1 → clampSr x = (0x3FF0000000000000, true)) ∧
    (1048576 < v → clampSr x = (0x4130000000000000, true)) ∧
    (1 ≤ v ∧ v ≤ 1048576 → clampSr x = (x, false))) ∧
  clampSr 0xFFF0000000000000 = (0x3FF0000000000000, true) ∧
  clampSr 0x7FF0000000000000 = (0x4130000000000000, true)

/-- Rule R163. -/
def Obligations.LatchEffect : Prop :=
  ∀ s : State, ∃ t, exec .latch s = .next t ∧ t.waveCur = (sel s.wavePend).1 ∧
    StickyAfter s t 6 (sel s.wavePend).2 ∧ (∀ v, t.slot v = s.slot v) ∧ t.sr = s.sr ∧
    t.prepared = s.prepared ∧ t.wavePend = s.wavePend ∧ t.outValid = s.outValid ∧ t.rdata = s.rdata

/-- Rule R100: NaN gives Sine; values up to 0 and from 4 on give the bounds; any other value gives the
nearest integer's waveform, ties upward; clamped exactly when the value is not that integer. -/
def Obligations.SelectorNearestInteger : Prop :=
  (∀ p : B32, NanPattern32 p → sel p = (.sine, true)) ∧
  sel 0xFF800000 = (.sine, true) ∧ sel 0x7F800000 = (.noise, true) ∧
  (∀ (p : B32) (w : ℚ), value32 p = some w →
    (w ≤ 0 → (sel p).1 = .sine ∧ ((sel p).2 = true ↔ w ≠ 0)) ∧
    (4 ≤ w → (sel p).1 = .noise ∧ ((sel p).2 = true ↔ w ≠ 4)) ∧
    (0 < w ∧ w < 4 → ((sel p).1.code.toNat : ℚ) - 1 / 2 ≤ w ∧ w < ((sel p).1.code.toNat : ℚ) + 1 / 2 ∧
      ((sel p).2 = true ↔ w ≠ ((sel p).1.code.toNat : ℚ))))

/-- Rule R164: the parameter is stored unchanged, and nothing else changes. -/
def Obligations.SetwaveStoresPattern : Prop :=
  ∀ (w : B32) (s : State), ∃ t, exec (.setwave w) s = .next t ∧ t.wavePend = w ∧
    (∀ v, t.slot v = s.slot v) ∧ t.sr = s.sr ∧ t.prepared = s.prepared ∧ t.waveCur = s.waveCur ∧
    t.sticky = s.sticky ∧ t.outValid = s.outValid ∧ t.rdata = s.rdata

/-- Rules R51, R165: what a `READ` of each address puts into `rdata`; a reserved one gives 0 and sets
`ERR_BADADDR`. -/
def Obligations.ReadMap : Prop :=
  ∀ (s : State) (v : SlotIx),
    exec (.read (0x00 + v.setWidth 8)) s = .next { s with rdata := (s.slot v).phase } ∧
    exec (.read (0x08 + v.setWidth 8)) s = .next { s with rdata := (s.slot v).freq } ∧
    exec (.read (0x10 + v.setWidth 8)) s = .next { s with rdata := (s.slot v).inc } ∧
    exec (.read (0x18 + v.setWidth 8)) s = .next { s with rdata := (s.slot v).note.setWidth 64 } ∧
    exec (.read (0x20 + v.setWidth 8)) s = .next { s with rdata := (s.slot v).out.setWidth 64 } ∧
    exec (.read 0x28) s = .next { s with rdata := s.sr } ∧
    exec (.read 0x29) s = .next { s with rdata := s.wavePend.setWidth 64 } ∧
    exec (.read 0x2A) s = .next { s with rdata := s.waveCur.code.setWidth 64 } ∧
    exec (.read 0x2B) s = .next { s with rdata := s.status } ∧
    exec (.read 0x2C) s = .next { s with rdata := 0x000000084F534331 } ∧
    (∀ a : BitVec 8, 0x2D ≤ a.toNat →
      ∃ t, exec (.read a) s = .next t ∧ t.rdata = 0 ∧ t.sticky.getLsbD 3 = true)

/-- Rule R52: a reserved address reads 0 and sets `ERR_BADADDR`, and changes no other state. -/
def Obligations.ReadReservedAddress : Prop :=
  ∀ (a : BitVec 8) (s : State), 0x2D ≤ a.toNat →
    ∃ t, exec (.read a) s = .next t ∧ t.rdata = 0 ∧ StickyAfter s t 3 true ∧
      (∀ v, t.slot v = s.slot v) ∧ t.sr = s.sr ∧ t.prepared = s.prepared ∧ t.wavePend = s.wavePend ∧ t.waveCur = s.waveCur ∧
      t.outValid = s.outValid

/-- Rule R63: every `READ` is idempotent. -/
def Obligations.ReadTwiceSameValue : Prop :=
  ∀ (a : BitVec 8) (s t u : State), exec (.read a) s = .next t → exec (.read a) t = .next u →
    u.rdata = t.rdata

/-- Rule R166: bit `i` of the mask clears `STATUS[16 + i]` and nothing else; with bit 7 set the word is
illegal, no bit is cleared and `ERR_ILLEGAL` is set (log 11). -/
def Obligations.ClrerrEffect : Prop :=
  ∀ (m : BitVec 8) (s : State), ∃ t, exec (.clrerr m) s = .next t ∧
    (m.getLsbD 7 = false → ∀ i < 7, t.sticky.getLsbD i = (s.sticky.getLsbD i && !m.getLsbD i)) ∧
    (m.getLsbD 7 = true → StickyAfter s t 0 true) ∧
    (∀ v, t.slot v = s.slot v) ∧ t.sr = s.sr ∧ t.prepared = s.prepared ∧ t.wavePend = s.wavePend ∧
    t.waveCur = s.waveCur ∧ t.outValid = s.outValid ∧ t.rdata = s.rdata

/-- Rule R167: every piece of state takes its reset value of rule R37. -/
def Obligations.SwresetEffect : Prop :=
  ∀ s : State, ∃ t, exec .swreset s = .next t ∧
    (∀ v, t.slot v = ⟨false, 0, 0, 0, 0, 0⟩ ∧ t.outPort v = 0) ∧ t.sr = 0 ∧ t.prepared = false ∧
    t.wavePend = 0 ∧ t.waveCur = .sine ∧ t.sticky = 0 ∧ t.status = 0 ∧ t.outValid = 0 ∧ t.rdata = 0

/-! ### Voice commands -/

/-- Rule R133. -/
def Obligations.NoteonEffect : Prop :=
  ∀ (v : SlotIx) (n : BitVec 8) (s : State), ∃ t, exec (.noteon v n) s = .next t ∧
    StickyAfter s t 5 (decide (127 < n.toNat)) ∧
    (t.slot v).note.toNat = min n.toNat 127 ∧
    (t.slot v).freq = etHzDefault (t.slot v).note ∧
    (s.prepared = true → (t.slot v).inc = incr (t.slot v).freq s.sr) ∧
    (s.prepared = false → (t.slot v).inc = 0) ∧
    (t.slot v).phase = 0 ∧ (t.slot v).active = true ∧ (t.slot v).out = (s.slot v).out ∧
    (∀ u, u ≠ v → t.slot u = s.slot u) ∧ t.sr = s.sr ∧ t.prepared = s.prepared ∧
    t.wavePend = s.wavePend ∧ t.waveCur = s.waveCur ∧ t.outValid = s.outValid ∧ t.rdata = s.rdata

/-- Rule R134. -/
def Obligations.KillEffect : Prop :=
  ∀ (v : SlotIx) (s : State), ∃ t, exec (.kill v) s = .next t ∧ (t.slot v).active = false ∧
    (t.slot v).phase = (s.slot v).phase ∧ (t.slot v).freq = (s.slot v).freq ∧
    (t.slot v).inc = (s.slot v).inc ∧ (t.slot v).note = (s.slot v).note ∧
    (t.slot v).out = (s.slot v).out ∧ (∀ u, u ≠ v → t.slot u = s.slot u) ∧ t.sr = s.sr ∧
    t.prepared = s.prepared ∧ t.wavePend = s.wavePend ∧ t.waveCur = s.waveCur ∧ t.sticky = s.sticky ∧
    t.outValid = s.outValid ∧ t.rdata = s.rdata

/-- Rule R135: unprepared, `ERR_UNPREP` and `out_valid` cleared; prepared, each active lane advances,
wraps and generates from the new phase, each inactive lane gives `+0`, and `out_valid` shows the active
lanes. A noise draw is some pattern of rule R106's set. The sine is the hardware's default (log 9). -/
def Obligations.TickEffect : Prop :=
  ∀ s : State,
    (s.prepared = false → ∃ t, exec .tick s = .next t ∧ StickyAfter s t 2 true ∧ t.outValid = 0 ∧
      (∀ v, t.slot v = s.slot v ∧ t.outPort v = s.outPort v) ∧ t.sr = s.sr ∧ t.prepared = s.prepared ∧
      t.wavePend = s.wavePend ∧ t.waveCur = s.waveCur ∧ t.rdata = s.rdata) ∧
    (s.prepared = true → ∃ t, exec .tick s = .next t ∧
      (∀ v, (s.slot v).active = true →
        (t.slot v).phase = wrap (add64 (s.slot v).phase (s.slot v).inc) ∧
        (∃ d x, value32 d = some x ∧ -1 ≤ x ∧ x < 1 ∧
          (t.slot v).out = gen hardware s.waveCur (t.slot v).phase d) ∧
        t.outValid.getLsbD v.toNat = true) ∧
      (∀ v, (s.slot v).active = false →
        (t.slot v).phase = (s.slot v).phase ∧ (t.slot v).out = 0 ∧ t.outValid.getLsbD v.toNat = false) ∧
      (∀ v, (t.slot v).active = (s.slot v).active ∧ (t.slot v).note = (s.slot v).note ∧
        (t.slot v).freq = (s.slot v).freq ∧ (t.slot v).inc = (s.slot v).inc ∧
        t.outPort v = (t.slot v).out) ∧
      t.sr = s.sr ∧ t.prepared = true ∧ t.wavePend = s.wavePend ∧ t.waveCur = s.waveCur ∧
      t.sticky = s.sticky ∧ t.rdata = s.rdata)

/-- Rule R136: lane `v` of `TICK` depends on nothing of the other slots. Two prepared states that agree on
slot `v`, on `WAVE_CUR` and on the draw agree on slot `v` and on `out_valid[v]` afterwards. -/
def Obligations.TickLanesIndependent : Prop :=
  ∀ (v : SlotIx) (s s' t t' : State), s.prepared = true → s'.prepared = true →
    s.waveCur = s'.waveCur → s.noiseCtr = s'.noiseCtr → s.slot v = s'.slot v →
    exec .tick s = .next t → exec .tick s' = .next t' →
    t.slot v = t'.slot v ∧ t.outValid.getLsbD v.toNat = t'.outValid.getLsbD v.toNat

/-- Rule R135: the first sample after `NOTEON` is generated at `wrap(INC)`, not at `+0`; a noise draw is
some pattern of rule R106's set. -/
def Obligations.FirstSampleAfterNoteon : Prop :=
  ∀ (v : SlotIx) (n : BitVec 8) (s t u : State), s.Inv hardware → s.prepared = true →
    exec (.noteon v n) s = .next t → exec .tick t = .next u →
    (u.slot v).phase = wrap (t.slot v).inc ∧
    ∃ d x, value32 d = some x ∧ -1 ≤ x ∧ x < 1 ∧
      (u.slot v).out = gen hardware s.waveCur (wrap (t.slot v).inc) d

/-! ### Waveform operations -/

/-- Rules R102, R101: every active slot's output becomes `rne32(SIN64(phase))`. -/
def Obligations.SineEffect : Prop :=
  ∀ s : State, ∃ t, exec .sine s = .next t ∧
    (∀ v, (s.slot v).active = true →
      t.slot v = { s.slot v with out := rne32 (sin64Default (s.slot v).phase) }) ∧
    (∀ v, (s.slot v).active = false → t.slot v = s.slot v) ∧
    t.sr = s.sr ∧ t.prepared = s.prepared ∧ t.wavePend = s.wavePend ∧ t.waveCur = s.waveCur ∧
    t.sticky = s.sticky ∧ t.outValid = s.outValid ∧ t.rdata = s.rdata

/-- Rules R103, R101: every active slot's output becomes the saw of its phase. -/
def Obligations.SawEffect : Prop :=
  ∀ s : State, ∃ t, exec .saw s = .next t ∧
    (∀ v, (s.slot v).active = true →
      t.slot v = { s.slot v with
        out := rne32 (sub64 (mul64 0x4000000000000000 (div64 (s.slot v).phase 0x401921FB54442D18))
          0x3FF0000000000000) }) ∧
    (∀ v, (s.slot v).active = false → t.slot v = s.slot v) ∧
    t.sr = s.sr ∧ t.prepared = s.prepared ∧ t.wavePend = s.wavePend ∧ t.waveCur = s.waveCur ∧
    t.sticky = s.sticky ∧ t.outValid = s.outValid ∧ t.rdata = s.rdata

/-- Rules R104, R101: every active slot's output becomes +1.0 while `phase <64 PI` and −1.0 otherwise. -/
def Obligations.SquareEffect : Prop :=
  ∀ s : State, ∃ t, exec .square s = .next t ∧
    (∀ v, (s.slot v).active = true →
      t.slot v = { s.slot v with
        out := if lt64 (s.slot v).phase 0x400921FB54442D18 then 0x3F800000 else 0xBF800000 }) ∧
    (∀ v, (s.slot v).active = false → t.slot v = s.slot v) ∧
    t.sr = s.sr ∧ t.prepared = s.prepared ∧ t.wavePend = s.wavePend ∧ t.waveCur = s.waveCur ∧
    t.sticky = s.sticky ∧ t.outValid = s.outValid ∧ t.rdata = s.rdata

/-- Rules R105, R101: every active slot's output becomes the triangle of its phase, rising while
`phase <64 PI` and falling otherwise. -/
def Obligations.TriEffect : Prop :=
  ∀ s : State, ∃ t, exec .tri s = .next t ∧
    (∀ v, (s.slot v).active = true →
      t.slot v = { s.slot v with
        out :=
          if lt64 (s.slot v).phase 0x400921FB54442D18 then
            rne32 (sub64 (mul64 0x4010000000000000 (div64 (s.slot v).phase 0x401921FB54442D18))
              0x3FF0000000000000)
          else
            rne32 (sub64 0x4008000000000000
              (mul64 0x4010000000000000 (div64 (s.slot v).phase 0x401921FB54442D18))) }) ∧
    (∀ v, (s.slot v).active = false → t.slot v = s.slot v) ∧
    t.sr = s.sr ∧ t.prepared = s.prepared ∧ t.wavePend = s.wavePend ∧ t.waveCur = s.waveCur ∧
    t.sticky = s.sticky ∧ t.outValid = s.outValid ∧ t.rdata = s.rdata

/-- Rules R106, R101: every active slot's output becomes a sample that is no NaN, at least −1 and below 1,
whatever the free value of log 5 is; its phase is not read. -/
def Obligations.NoiseEffect : Prop :=
  ∀ s : State, ∃ t, exec .noise s = .next t ∧
    (∀ v, (s.slot v).active = true →
      ∃ d x, t.slot v = { s.slot v with out := d } ∧ value32 d = some x ∧ -1 ≤ x ∧ x < 1) ∧
    (∀ v, (s.slot v).active = false → t.slot v = s.slot v) ∧
    t.sr = s.sr ∧ t.prepared = s.prepared ∧ t.wavePend = s.wavePend ∧ t.waveCur = s.waveCur ∧
    t.sticky = s.sticky ∧ t.outValid = s.outValid ∧ t.rdata = s.rdata

/-- Rule R107: for every code and every phase in range the sample is finite and in [−1, 1], with any sine
that has property S1 and any draw of rule R106's set. -/
def Obligations.GeneratorInUnitRange : Prop :=
  ∀ (P : Config.Params) (w : Wave) (p : B64) (d : B32) (x : ℚ),
    (∀ y, phaseInRange y = true → inUnit64 (P.sin64 y) = true) → phaseInRange p = true →
    value32 d = some x → -1 ≤ x → x < 1 → inUnit32 (gen P w p d) = true

/-- Rules R103, R105, R109: the corner values of the saw and the triangle, the saw's +1.0 just below
`TWO_PI` among them. -/
def Obligations.WaveformCornerValues : Prop :=
  sawSample 0 = 0xBF800000 ∧ sawSample 0x400921FB54442D18 = 0 ∧
  sawSample 0x401921FB54442D17 = 0x3F800000 ∧ sawSample 0x3FF921FB54442D18 = 0xBF000000 ∧
  triSample 0 = 0xBF800000 ∧ triSample 0x400921FB54442D17 = 0x3F800000 ∧
  triSample 0x400921FB54442D18 = 0x3F800000 ∧ triSample 0x401921FB54442D17 = 0xBF800000 ∧
  triSample 0x3FF921FB54442D18 = 0 ∧ triSample 0x4012D97C7F3321D2 = 0 ∧
  triSample 0x3FF0000000000000 = 0xBEBA0CF9

/-! ### Numbers -/

/-- Rule R53: the NaN patterns are those with the exponent all ones and a fraction other than 0. -/
def Obligations.NanPatterns : Prop :=
  (∀ x : B64, isNaN64 x = true ↔ NanPattern64 x) ∧ (∀ x : B32, isNaN32 x = true ↔ NanPattern32 x)

/-- Rule R12: each operation's finite result on finite operands is nearest to the exact result. -/
def Obligations.OperationsRoundToNearest : Prop :=
  ∀ (a b : B64) (x y : ℚ), value64 a = some x → value64 b = some y →
    (∀ r, value64 (add64 a b) = some r → ∀ z w, value64 z = some w → |r - (x + y)| ≤ |w - (x + y)|) ∧
    (∀ r, value64 (sub64 a b) = some r → ∀ z w, value64 z = some w → |r - (x - y)| ≤ |w - (x - y)|) ∧
    (∀ r, value64 (mul64 a b) = some r → ∀ z w, value64 z = some w → |r - x * y| ≤ |w - x * y|) ∧
    (y ≠ 0 → ∀ r, value64 (div64 a b) = some r → ∀ z w, value64 z = some w → |r - x / y| ≤ |w - x / y|) ∧
    (∀ r, value32 (rne32 a) = some r → ∀ z w, value32 z = some w → |r - x| ≤ |w - x|)

/-- Rule R12: where two data of different values are equally near, the operation gives the one with an
even pattern. -/
def Obligations.OperationsBreakTiesToEven : Prop :=
  ∀ (a b : B64) (x y : ℚ), value64 a = some x → value64 b = some y →
    (∀ r, value64 (add64 a b) = some r → ∀ z w, value64 z = some w → w ≠ r →
      |r - (x + y)| = |w - (x + y)| → (add64 a b).getLsbD 0 = false) ∧
    (∀ r, value64 (mul64 a b) = some r → ∀ z w, value64 z = some w → w ≠ r →
      |r - x * y| = |w - x * y| → (mul64 a b).getLsbD 0 = false) ∧
    (∀ r, value32 (rne32 a) = some r → ∀ z w, value32 z = some w → w ≠ r →
      |r - x| = |w - x| → (rne32 a).getLsbD 0 = false)

/-- Rule R131: the exact remainder by `TWO_PI`, in [+0, `TWO_PI`); the sum itself below `TWO_PI`; and the
rounded subtraction below twice that. -/
def Obligations.WrapIsExactRemainder : Prop :=
  value64 0x401921FB54442D18 = some twoPiValue ∧
  ∀ (s : B64) (v : ℚ), value64 s = some v → 0 ≤ v →
    value64 (wrap s) = some (v - ⌊v / twoPiValue⌋ * twoPiValue) ∧ phaseInRange (wrap s) = true ∧
    (v < twoPiValue → s.msb = false → wrap s = s) ∧
    (twoPiValue ≤ v → v < 2 * twoPiValue → wrap s = sub64 s 0x401921FB54442D18)

/-- Rule R130: for every frequency the block can hold and every rate in range, the increment is the
product and then the quotient, finite, not negative, and at most the value at note 127 and 1.0 hertz. -/
def Obligations.IncrementBounded : Prop :=
  (∀ f sr : B64, incr f sr = div64 (mul64 0x401921FB54442D18 f) sr) ∧
  (∀ f sr : B64, (f = 0 ∨ ∃ n, f = etHzDefault n) → rateInRange sr = true →
    nonNegative64 (incr f sr) = true ∧ (incr f sr).toNat ≤ 0x40F33DF5BDD21929) ∧
  incr (etHzDefault 127) 0x3FF0000000000000 = 0x40F33DF5BDD21929

/-- Rule R135: once prepared, every active slot's increment is above 0. -/
def Obligations.ActiveIncrementPositive : Prop :=
  ∀ (s : State) (v : SlotIx), s.Inv hardware → s.prepared = true → (s.slot v).active = true →
    ∃ x, value64 (s.slot v).inc = some x ∧ 0 < x

/-- Rules R102, R132: the hardware's own table and sine have the properties E1 to E3, S1 and S2 that every
admissible parameter has. -/
def Obligations.HardwareParametersAdmissible : Prop := Admissible hardware

/-- Rule R132: each entry of the default table is nearest to `440 × 2^((n − 69)/12)`, and entries 12 notes
apart differ by one in the exponent only. -/
def Obligations.NoteTableNearest : Prop :=
  (∀ n : Note, NearestTo (etHzDefault n) (440 * (2 : ℝ) ^ (((n.toNat : ℝ) - 69) / 12))) ∧
  (∀ n : Note, n.toNat + 12 < 128 →
    (etHzDefault (n + 12)).toNat = (etHzDefault n).toNat + 2 ^ 52)

/-- Rule R102: wherever the enclosure decides, the default sine is nearest to the real sine of the exact
value of its argument. -/
def Obligations.SineNearest : Prop :=
  ∀ (x r : B64) (v : ℚ), value64 x = some v → sinDecided v = some r →
    sin64Default x = r ∧ NearestTo r (Real.sin (v : ℝ))

/-! ### The whole machine -/

/-- Rule R38 (with rules R21, R22): every step keeps the invariants. -/
def Obligations.StepKeepsInvariants : Prop :=
  ∀ s t : State, s.Inv hardware → step s = .next t → t.Inv hardware

/-- Rule R38 for parameters other than the hardware's: the operations that use them keep the invariants
whenever the parameters are usable, which E2, E3 and S1 imply. -/
def Obligations.UsableParametersKeepInvariants : Prop :=
  ∀ (P : Config.Params) (s : State), Usable P → s.Inv P →
    (∀ v n, (s.noteOn P v n).Inv P) ∧ (s.tick P).Inv P ∧
    (∀ d t, exec (.prepare d) s = .next t → t.Inv P)

/-- Rule R206: no step clears the record of a fault. -/
def Obligations.FaultRecordNeverCleared : Prop :=
  ∀ (s t : State) (f : Fault), step s = .next t → s.faults.has f = true → t.faults.has f = true

/-- Rule R206 and logs 3, 4, 5: what an instruction does to the model's own fields. The events to come are
kept; the draw counter moves only in a noise operation; and the record gains exactly the fault of the
error the instruction meets. -/
def Obligations.ModelFieldsFrame : Prop :=
  ∀ (i : Instr) (s t : State), exec i s = .next t →
    t.inputs = s.inputs ∧
    (t.noiseCtr ≠ s.noiseCtr → i = .noise ∨ (i = .tick ∧ s.prepared = true ∧ s.waveCur = .noise)) ∧
    (t.faults.illegal = true ↔ s.faults.illegal = true ∨ ∃ m : BitVec 8, i = .clrerr m ∧ m.getLsbD 7 = true) ∧
    (t.faults.srNan = true ↔ s.faults.srNan = true ∨ ∃ d, i = .prepare d ∧ NanPattern64 d) ∧
    (t.faults.unprep = true ↔ s.faults.unprep = true ∨ (i = .tick ∧ s.prepared = false)) ∧
    (t.faults.badAddr = true ↔ s.faults.badAddr = true ∨ ∃ a : BitVec 8, i = .read a ∧ 0x2D ≤ a.toNat)

/-- Rule R31: only `CLRERR` with the bit in its mask, or reset, clears a sticky bit. -/
def Obligations.StickyClearedByClrerrOrReset : Prop :=
  ∀ (i : Instr) (s t : State) (k : Nat), exec i s = .next t →
    s.sticky.getLsbD k = true → t.sticky.getLsbD k = false →
    i = .swreset ∨ ∃ m : BitVec 8, i = .clrerr m ∧ m.getLsbD k = true

/-- Rule R31: no sticky bit alters an output sample or any other state. Running an instruction other than a
`READ` of `STATUS` with other sticky bits gives the same state but for the sticky bits. -/
def Obligations.StatusBitsAlterNothing : Prop :=
  ∀ (i : Instr) (s t : State) (b : BitVec 7), i ≠ .read 0x2B → exec i s = .next t →
    ∃ b', exec i { s with sticky := b } = .next { t with sticky := b' }

/-- Rule R31: the layout of `STATUS`. -/
def Obligations.StatusLayout : Prop :=
  ∀ s : State,
    (∀ v : SlotIx, s.status.getLsbD v.toNat = (s.slot v).active) ∧
    s.status.getLsbD 8 = s.prepared ∧ (∀ k, 9 ≤ k → k ≤ 15 → s.status.getLsbD k = false) ∧
    (∀ k < 7, s.status.getLsbD (16 + k) = s.sticky.getLsbD k) ∧
    (∀ k, 23 ≤ k → s.status.getLsbD k = false)

/-- Rules R7, R24: only `NOTEON` to the slot makes it active; only `KILL` of the slot, or reset, makes it
inactive. -/
def Obligations.ActiveChangedByNoteonKillOrReset : Prop :=
  ∀ (i : Instr) (s t : State) (v : SlotIx), exec i s = .next t →
    ((s.slot v).active = false → (t.slot v).active = true → ∃ n, i = .noteon v n) ∧
    ((s.slot v).active = true → (t.slot v).active = false → i = .swreset ∨ i = .kill v)

/-- Rules R20 to R26: what writes each register of a slot. A waveform operation writes the output as part
of `TICK` (log 1). -/
def Obligations.SlotRegisterWriters : Prop :=
  ∀ (i : Instr) (s t : State) (v : SlotIx), exec i s = .next t →
    ((t.slot v).freq ≠ (s.slot v).freq ∨ (t.slot v).note ≠ (s.slot v).note →
      i = .swreset ∨ ∃ n, i = .noteon v n) ∧
    ((t.slot v).phase ≠ (s.slot v).phase → i = .swreset ∨ i = .tick ∨ ∃ n, i = .noteon v n) ∧
    ((t.slot v).inc ≠ (s.slot v).inc →
      i = .swreset ∨ (∃ d, i = .prepare d) ∨ ∃ n, i = .noteon v n) ∧
    ((t.slot v).out ≠ (s.slot v).out → i = .swreset ∨ i = .tick ∨ ∃ w : Wave, i = w.instr)

/-- Rules R28, R29: only `PREPARE` and reset write `SR` and `PREPARED`, and only reset clears `PREPARED`. -/
def Obligations.RateWrittenByPrepareOrReset : Prop :=
  ∀ (i : Instr) (s t : State), exec i s = .next t →
    ((t.sr ≠ s.sr ∨ t.prepared ≠ s.prepared) → i = .swreset ∨ ∃ d, i = .prepare d) ∧
    (s.prepared = true → t.prepared = false → i = .swreset)

/-- Rules R30, R32, R59: only `LATCH` and reset write `WAVE_CUR`, and only the parameter write and reset
write `WAVE_PEND`; so between two `LATCH`es every `TICK` uses the same selector. -/
def Obligations.SelectorWrittenByLatchOrReset : Prop :=
  ∀ (i : Instr) (s t : State), exec i s = .next t →
    (t.waveCur ≠ s.waveCur → i = .swreset ∨ i = .latch) ∧
    (t.wavePend ≠ s.wavePend → i = .swreset ∨ ∃ w, i = .setwave w)

/-- Rule R34: only `READ` and reset write `rdata`, and only `TICK` and reset write `out_valid`. -/
def Obligations.OutputLatchWriters : Prop :=
  ∀ (i : Instr) (s t : State), exec i s = .next t →
    (t.rdata ≠ s.rdata → i = .swreset ∨ ∃ a, i = .read a) ∧
    (t.outValid ≠ s.outValid → i = .swreset ∨ i = .tick)

/-- Rules R58, R59: a parameter write commutes with every instruction that neither reads nor writes
`WAVE_PEND`, so its place among them makes no difference. -/
def Obligations.ParameterWriteCommutes : Prop :=
  ∀ (i : Instr) (s t : State) (w : B32), i ≠ .latch → i ≠ .swreset → i ≠ .read 0x29 →
    (∀ w', i ≠ .setwave w') → exec i s = .next t →
    exec i { s with wavePend := w } = .next { t with wavePend := w }
end

