-- ==== Sys2Proof/Laws/Float.lean ====
section
/-! SUPPORT. The rounding of magnitudes: it respects the order of the values, fixes every value of the
format, and is nearest; packing and unpacking; what the operations give on finite data. -/

namespace Sys2Proof.Machine

/-! ### Values of patterns -/

theorem scale2_eq (m : Nat) (k : Int) : scale2 m k = (m : ℚ) * 2 ^ k := by
  cases k with
  | ofNat j => simp [scale2]
  | negSucc j => simp [scale2, Rat.mkRat_eq_div, zpow_negSucc, div_eq_mul_inv]

/-- A pattern is a step number and a mantissa; its value is the mantissa counted in steps. -/
theorem Fmt.magnitude_parts (F : Fmt) (p : Nat) :
    ∃ E M : Nat, p = E * 2 ^ F.fracBits + M ∧ M < 2 ^ (F.fracBits + 1) ∧
      (E = 0 ∨ 2 ^ F.fracBits ≤ M) ∧ F.magnitude p = (M : ℚ) * 2 ^ (F.qMin + (E : Int)) := by
  have hpos : 0 < 2 ^ F.fracBits := by positivity
  have hf := Nat.mod_lt p hpos
  have hp := Nat.div_add_mod p (2 ^ F.fracBits)
  by_cases he : p / 2 ^ F.fracBits = 0
  · refine ⟨0, p % 2 ^ F.fracBits, ?_, ?_, Or.inl rfl, ?_⟩
    · rw [he] at hp; omega
    · rw [pow_succ]; omega
    · simp [Fmt.magnitude, he, scale2_eq]
  · obtain ⟨e, he'⟩ := Nat.exists_eq_succ_of_ne_zero he
    rw [he', Nat.succ_eq_add_one, Nat.mul_add, Nat.mul_one] at hp
    refine ⟨e, 2 ^ F.fracBits + p % 2 ^ F.fracBits, ?_, ?_, Or.inr (by omega), ?_⟩
    · rw [Nat.mul_comm e]; omega
    · rw [pow_succ]; omega
    · simp only [Fmt.magnitude, he, if_false, scale2_eq]
      congr 2
      rw [he']; push_cast; ring

/-- The value of a step number and a mantissa, a carry into the next step allowed. -/
theorem Fmt.magnitude_of_parts (F : Fmt) (E M : Nat) (hM : M ≤ 2 ^ (F.fracBits + 1))
    (hE : E = 0 ∨ 2 ^ F.fracBits ≤ M) :
    F.magnitude (E * 2 ^ F.fracBits + M) = (M : ℚ) * 2 ^ (F.qMin + (E : Int)) := by
  have hpos : 0 < 2 ^ F.fracBits := by positivity
  rw [pow_succ] at hM
  rcases Nat.lt_or_ge M (2 ^ F.fracBits) with h | h
  · have hE0 : E = 0 := by omega
    subst hE0
    simp [Fmt.magnitude, Nat.div_eq_of_lt h, Nat.mod_eq_of_lt h, scale2_eq]
  · obtain ⟨f, rfl⟩ := Nat.exists_eq_add_of_le h
    rcases Nat.lt_or_ge f (2 ^ F.fracBits) with hf | hf
    · have e1 : (E * 2 ^ F.fracBits + (2 ^ F.fracBits + f)) / 2 ^ F.fracBits = E + 1 := by
        rw [show E * 2 ^ F.fracBits + (2 ^ F.fracBits + f) = f + 2 ^ F.fracBits * (E + 1) by ring,
          Nat.add_mul_div_left _ _ hpos, Nat.div_eq_of_lt hf]; omega
      have e2 : (E * 2 ^ F.fracBits + (2 ^ F.fracBits + f)) % 2 ^ F.fracBits = f := by
        rw [show E * 2 ^ F.fracBits + (2 ^ F.fracBits + f) = f + 2 ^ F.fracBits * (E + 1) by ring,
          Nat.add_mul_mod_self_left, Nat.mod_eq_of_lt hf]
      simp only [Fmt.magnitude, e1, e2, Nat.succ_ne_zero, if_false, scale2_eq]
      congr 2
      push_cast; ring
    · have hf' : f = 2 ^ F.fracBits := by omega
      subst hf'
      have e1 : (E * 2 ^ F.fracBits + (2 ^ F.fracBits + 2 ^ F.fracBits)) / 2 ^ F.fracBits = E + 2 := by
        rw [show E * 2 ^ F.fracBits + (2 ^ F.fracBits + 2 ^ F.fracBits) = 2 ^ F.fracBits * (E + 2) by ring,
          Nat.mul_div_cancel_left _ hpos]
      have e2 : (E * 2 ^ F.fracBits + (2 ^ F.fracBits + 2 ^ F.fracBits)) % 2 ^ F.fracBits = 0 := by
        rw [show E * 2 ^ F.fracBits + (2 ^ F.fracBits + 2 ^ F.fracBits) = 2 ^ F.fracBits * (E + 2) by ring,
          Nat.mul_mod_right]
      have e3 : E + 2 ≠ 0 := by omega
      simp only [Fmt.magnitude, e1, e2, e3, if_false, scale2_eq]
      rw [show F.qMin + ((E + 2 : Nat) : Int) - 1 = F.qMin + (E : Int) + 1 by push_cast; ring,
        zpow_add₀ (by norm_num : (2 : ℚ) ≠ 0) (F.qMin + (E : Int)) 1]
      push_cast; ring

theorem Fmt.magnitude_nonneg (F : Fmt) (p : Nat) : 0 ≤ F.magnitude p := by
  obtain ⟨E, M, -, -, -, h⟩ := F.magnitude_parts p
  rw [h]; positivity

theorem Fmt.magnitude_pos (F : Fmt) {p : Nat} (hp : 0 < p) : 0 < F.magnitude p := by
  obtain ⟨E, M, hpe, -, hE, h⟩ := F.magnitude_parts p
  have hM : 0 < M := by
    rcases hE with rfl | hE
    · omega
    · exact lt_of_lt_of_le (by positivity) hE
  rw [h]; positivity

@[simp] theorem Fmt.magnitude_zero (F : Fmt) : F.magnitude 0 = 0 := by
  simp [Fmt.magnitude, scale2_eq]

/-! ### The logarithm and the integer rounding -/

theorem ilog2_spec {n d : Nat} (hn : 0 < n) (hd : 0 < d) :
    (2 : ℚ) ^ ilog2 n d ≤ (n : ℚ) / d ∧ (n : ℚ) / d < 2 ^ (ilog2 n d + 1) := by
  have hdq : (0 : ℚ) < d := by exact_mod_cast hd
  have two : (2 : ℚ) ≠ 0 := by norm_num
  have n1 : (2 : ℚ) ^ (Nat.log2 n : Int) ≤ n := by
    rw [zpow_natCast]; exact_mod_cast Nat.log2_self_le hn.ne'
  have n2 : (n : ℚ) < 2 ^ ((Nat.log2 n : Int) + 1) := by
    rw [show (Nat.log2 n : Int) + 1 = ((Nat.log2 n + 1 : Nat) : Int) by push_cast; ring, zpow_natCast]
    exact_mod_cast Nat.lt_log2_self
  have d1 : (2 : ℚ) ^ (Nat.log2 d : Int) ≤ d := by
    rw [zpow_natCast]; exact_mod_cast Nat.log2_self_le hd.ne'
  have d2 : (d : ℚ) < 2 ^ ((Nat.log2 d : Int) + 1) := by
    rw [show (Nat.log2 d : Int) + 1 = ((Nat.log2 d + 1 : Nat) : Int) by push_cast; ring, zpow_natCast]
    exact_mod_cast Nat.lt_log2_self
  have key : ∀ k : Int, (n * 2 ^ (-k).toNat < d * 2 ^ k.toNat) ↔ (n : ℚ) < d * 2 ^ k := by
    intro k
    rcases le_total 0 k with hk | hk
    · obtain ⟨j, rfl⟩ := Int.eq_ofNat_of_zero_le hk
      rw [zpow_natCast]
      simp only [Int.toNat_natCast, show (-(j : Int)).toNat = 0 by omega, pow_zero, mul_one]
      constructor <;> intro h <;> exact_mod_cast h
    · obtain ⟨j, hj⟩ := Int.eq_ofNat_of_zero_le (show 0 ≤ -k by omega)
      have hk' : k = -(j : Int) := by omega
      subst hk'
      rw [zpow_neg, zpow_natCast]
      simp only [neg_neg, Int.toNat_natCast, show (-(j : Int)).toNat = 0 by omega, pow_zero, mul_one]
      rw [← div_eq_mul_inv, lt_div_iff₀ (by positivity)]
      constructor <;> intro h <;> exact_mod_cast h
  have hub : (n : ℚ) / d < 2 ^ ((Nat.log2 n : Int) - (Nat.log2 d : Int) + 1) := by
    rw [div_lt_iff₀ hdq]
    calc (n : ℚ) < 2 ^ ((Nat.log2 n : Int) + 1) := n2
      _ = 2 ^ ((Nat.log2 n : Int) - (Nat.log2 d : Int) + 1) * 2 ^ (Nat.log2 d : Int) := by
        rw [← zpow_add₀ two]; congr 1; ring
      _ ≤ _ := by gcongr
  have hlb : (2 : ℚ) ^ ((Nat.log2 n : Int) - (Nat.log2 d : Int) - 1) ≤ (n : ℚ) / d := by
    rw [le_div_iff₀ hdq]
    calc (2 : ℚ) ^ ((Nat.log2 n : Int) - (Nat.log2 d : Int) - 1) * d
        ≤ 2 ^ ((Nat.log2 n : Int) - (Nat.log2 d : Int) - 1) * 2 ^ ((Nat.log2 d : Int) + 1) := by gcongr
      _ = 2 ^ (Nat.log2 n : Int) := by rw [← zpow_add₀ two]; congr 1; ring
      _ ≤ n := n1
  unfold ilog2
  simp only
  split
  · rename_i h
    rw [key] at h
    refine ⟨hlb, ?_⟩
    rw [div_lt_iff₀ hdq, sub_add_cancel, mul_comm]
    exact h
  · rename_i h
    rw [key, not_lt] at h
    refine ⟨?_, hub⟩
    rw [le_div_iff₀ hdq, mul_comm]
    exact h

/-- `rneDiv` is within half of the quotient. -/
theorem rneDiv_half (a : Nat) {b : Nat} (hb : 0 < b) :
    |((rneDiv a b : Nat) : ℚ) - (a : ℚ) / b| ≤ 1 / 2 := by
  have hbq : (0 : ℚ) < b := by exact_mod_cast hb
  have hx : (a : ℚ) / b = (a / b : Nat) + ((a % b : Nat) : ℚ) / b := by
    have h : (b : ℚ) * (a / b : Nat) + (a % b : Nat) = a := by exact_mod_cast Nat.div_add_mod a b
    field_simp
    linarith
  have h0 : (0 : ℚ) ≤ ((a % b : Nat) : ℚ) / b := by positivity
  unfold rneDiv
  split
  · rename_i h
    have : ((a % b : Nat) : ℚ) / b < 1 / 2 := by
      rw [div_lt_div_iff₀ hbq (by norm_num)]
      have : (2 * (a % b : Nat) : ℚ) < b := by exact_mod_cast h
      linarith
    rw [hx, abs_le]; constructor <;> linarith
  · split
    · rename_i h1 h
      have l : 1 / 2 < ((a % b : Nat) : ℚ) / b := by
        rw [div_lt_div_iff₀ (by norm_num) hbq]
        have : (b : ℚ) < 2 * (a % b : Nat) := by exact_mod_cast h
        linarith
      have u : ((a % b : Nat) : ℚ) / b ≤ 1 := by
        rw [div_le_one hbq]; exact_mod_cast (Nat.mod_lt a hb).le
      rw [hx, abs_le]; push_cast; constructor <;> linarith
    · rename_i h1 h
      have e : ((a % b : Nat) : ℚ) / b = 1 / 2 := by
        rw [div_eq_div_iff hbq.ne' (by norm_num)]
        have : (2 * (a % b) : Nat) = b := by omega
        have : (2 * (a % b : Nat) : ℚ) = b := by exact_mod_cast this
        linarith
      split
      · rw [hx, e, abs_le]; constructor <;> linarith
      · rw [hx, e, abs_le]; push_cast; constructor <;> linarith

/-- An integer within half of `x` is at most every integer at or above `x`. -/
theorem int_le_of_half {m z : Int} {x : ℚ} (h : |(m : ℚ) - x| ≤ 1 / 2) (hz : x ≤ z) : m ≤ z := by
  rw [abs_le] at h
  have : (m : ℚ) < (z : ℚ) + 1 := by linarith
  exact Int.lt_add_one_iff.mp (by exact_mod_cast this)

theorem le_int_of_half {m z : Int} {x : ℚ} (h : |(m : ℚ) - x| ≤ 1 / 2) (hz : (z : ℚ) ≤ x) : z ≤ m := by
  rw [abs_le] at h
  have : (z : ℚ) < (m : ℚ) + 1 := by linarith
  exact Int.lt_add_one_iff.mp (by exact_mod_cast this)

/-- An integer within half of `x` is nearest among the integers. -/
theorem nearest_of_half {m : Int} {x : ℚ} (h : |(m : ℚ) - x| ≤ 1 / 2) (z : Int) :
    |(m : ℚ) - x| ≤ |(z : ℚ) - x| := by
  by_cases hz : z = m
  · rw [hz]
  · have h1 : (1 : ℚ) ≤ |(z : ℚ) - m| := by
      have : (1 : Int) ≤ |z - m| := Int.one_le_abs (sub_ne_zero.mpr hz)
      have : ((1 : Int) : ℚ) ≤ ((|z - m| : Int) : ℚ) := by exact_mod_cast this
      simpa using this
    have h2 : |(z : ℚ) - m| ≤ |(z : ℚ) - x| + |x - m| := abs_sub_le _ _ _
    rw [abs_sub_comm x] at h2
    linarith

/-! ### Rounding a magnitude -/

/-- What the rounding of a positive magnitude is: a count of steps, the step being the smallest or such
that the magnitude fills the mantissa, and the count within half of the exact one. -/
theorem Fmt.roundMag_parts (F : Fmt) {r : ℚ} (hr : 0 < r) :
    ∃ Q m : Nat, F.roundMag r = min (Q * 2 ^ F.fracBits + m) F.infPat ∧
      (Q = 0 ∨ (2 : ℚ) ^ (F.qMin + (Q : Int) + F.fracBits) ≤ r) ∧
      r < (2 : ℚ) ^ (F.qMin + (Q : Int) + F.fracBits + 1) ∧
      |((m : Int) : ℚ) - r / 2 ^ (F.qMin + (Q : Int))| ≤ 1 / 2 := by
  have hn : 0 < r.num.natAbs := Int.natAbs_pos.mpr (Rat.num_ne_zero.mpr hr.ne')
  have hd : 0 < r.den := r.den_pos
  have hrn : (r.num.natAbs : ℚ) / r.den = r := by
    have : ((r.num.natAbs : Int) : ℚ) = (r.num : ℚ) := by
      rw [Int.natAbs_of_nonneg (Rat.num_nonneg.mpr hr.le)]
    calc (r.num.natAbs : ℚ) / r.den = (r.num : ℚ) / r.den := by rw [← this, Int.cast_natCast]
      _ = r := Rat.num_div_den r
  obtain ⟨hl, hu⟩ := ilog2_spec hn hd
  rw [hrn] at hl hu
  set k := ilog2 r.num.natAbs r.den with hk
  set q := max (k - F.fracBits) F.qMin with hq
  have hqm : F.qMin ≤ q := le_max_right _ _
  refine ⟨(q - F.qMin).toNat, rneDiv (r.num.natAbs * 2 ^ (-q).toNat) (r.den * 2 ^ q.toNat), ?_, ?_, ?_, ?_⟩
  · simp only [Fmt.roundMag, not_le.mpr hr, if_false]
    rfl
  · rw [show F.qMin + ((q - F.qMin).toNat : Int) = q by omega]
    rcases le_or_gt (k - F.fracBits) F.qMin with h | h
    · left; rw [hq, max_eq_right h]; simp
    · right
      rw [hq, max_eq_left h.le, sub_add_cancel]; exact hl
  · rw [show F.qMin + ((q - F.qMin).toNat : Int) = q by omega]
    refine lt_of_lt_of_le hu (zpow_le_zpow_right₀ (by norm_num) ?_)
    have := le_max_left (k - (F.fracBits : Int)) F.qMin
    omega
  · rw [show F.qMin + ((q - F.qMin).toNat : Int) = q by omega]
    have hb : 0 < r.den * 2 ^ q.toNat := by positivity
    have h := rneDiv_half (r.num.natAbs * 2 ^ (-q).toNat) hb
    have e : ((r.num.natAbs * 2 ^ (-q).toNat : Nat) : ℚ) / ((r.den * 2 ^ q.toNat : Nat) : ℚ) = r / 2 ^ q := by
      conv_rhs => rw [← hrn]
      rcases le_total 0 q with h0 | h0
      · obtain ⟨j, hj⟩ := Int.eq_ofNat_of_zero_le h0
        rw [hj]
        simp only [Int.toNat_natCast, show (-(j : Int)).toNat = 0 by omega, pow_zero, mul_one]
        push_cast
        rw [zpow_natCast, div_div]
      · obtain ⟨j, hj⟩ := Int.eq_ofNat_of_zero_le (show 0 ≤ -q by omega)
        have hj' : q = -(j : Int) := by omega
        rw [hj']
        simp only [neg_neg, Int.toNat_natCast, show (-(j : Int)).toNat = 0 by omega, pow_zero, mul_one]
        push_cast
        rw [zpow_neg, zpow_natCast, div_inv_eq_mul, mul_div_right_comm]
    rw [← e]
    exact_mod_cast h

theorem Fmt.roundMag_of_nonpos (F : Fmt) {r : ℚ} (hr : r ≤ 0) : F.roundMag r = 0 := by
  simp [Fmt.roundMag, hr]

@[simp] theorem Fmt.roundMag_zero (F : Fmt) : F.roundMag 0 = 0 := F.roundMag_of_nonpos le_rfl

theorem Fmt.roundMag_le_infPat (F : Fmt) (r : ℚ) : F.roundMag r ≤ F.infPat := by
  rcases le_or_gt r 0 with h | h
  · rw [F.roundMag_of_nonpos h]; exact Nat.zero_le _
  · obtain ⟨Q, m, he, -⟩ := F.roundMag_parts h
    rw [he]; exact min_le_right _ _

/-- The count of steps before the limit at infinity fills the mantissa: `m ≤ 2^(t+1)`, and `2^t ≤ m`
unless the step is the smallest. -/
theorem count_bounds {q : Int} {t m : Nat} {r : ℚ} (hu : r < (2 : ℚ) ^ (q + t + 1))
    (hm : |((m : Int) : ℚ) - r / 2 ^ q| ≤ 1 / 2) :
    m ≤ 2 ^ (t + 1) ∧ ((2 : ℚ) ^ (q + t) ≤ r → 2 ^ t ≤ m) := by
  have two : (2 : ℚ) ≠ 0 := by norm_num
  have hq : (0 : ℚ) < 2 ^ q := by positivity
  constructor
  · have : (m : Int) ≤ ((2 ^ (t + 1) : Nat) : Int) := by
      apply int_le_of_half hm
      rw [div_le_iff₀ hq]
      refine hu.le.trans (le_of_eq ?_)
      rw [add_assoc, zpow_add₀ two, mul_comm]
      push_cast
      rw [show ((t : Int) + 1) = ((t + 1 : Nat) : Int) by push_cast; ring, zpow_natCast]
    exact_mod_cast this
  · intro hl
    have : ((2 ^ t : Nat) : Int) ≤ (m : Int) := by
      apply le_int_of_half hm
      rw [le_div_iff₀ hq]
      refine le_trans (le_of_eq ?_) hl
      rw [zpow_add₀ two, mul_comm]
      push_cast
      rw [zpow_natCast]
    exact_mod_cast this

/-- A magnitude at most a value of the format rounds to at most that value's pattern. -/
theorem Fmt.roundMag_le (F : Fmt) {r : ℚ} {p : Nat} (h : r ≤ F.magnitude p) : F.roundMag r ≤ p := by
  rcases le_or_gt r 0 with h0 | h0
  · rw [F.roundMag_of_nonpos h0]; exact Nat.zero_le _
  obtain ⟨Q, m, he, hl, hu, hm⟩ := F.roundMag_parts h0
  obtain ⟨E, M, hp, hM, hE, hv⟩ := F.magnitude_parts p
  obtain ⟨hm1, hm2⟩ := count_bounds hu hm
  have two : (2 : ℚ) ≠ 0 := by norm_num
  rw [he]
  refine le_trans (min_le_left _ _) ?_
  rw [hv] at h
  rcases lt_trichotomy Q E with hQ | hQ | hQ
  · have hE' : 2 ^ F.fracBits ≤ M := by omega
    rw [hp]
    obtain ⟨j, rfl⟩ := Nat.exists_eq_add_of_lt hQ
    have : 2 ^ (F.fracBits + 1) = 2 ^ F.fracBits + 2 ^ F.fracBits := by ring
    have e : (Q + j + 1) * 2 ^ F.fracBits = Q * 2 ^ F.fracBits + j * 2 ^ F.fracBits + 2 ^ F.fracBits := by ring
    omega
  · subst hQ
    have : (m : Int) ≤ (M : Int) := by
      apply int_le_of_half hm
      rw [div_le_iff₀ (by positivity)]
      exact_mod_cast h
    omega
  · exfalso
    have hl' : (2 : ℚ) ^ (F.qMin + (Q : Int) + F.fracBits) ≤ r := by
      rcases hl with hl | hl
      · omega
      · exact hl
    have hM' : (M : ℚ) < 2 ^ (((F.fracBits + 1 : Nat)) : Int) := by
      rw [zpow_natCast]; exact_mod_cast hM
    have : (M : ℚ) * 2 ^ (F.qMin + (E : Int)) < 2 ^ (F.qMin + (Q : Int) + F.fracBits) := by
      calc (M : ℚ) * 2 ^ (F.qMin + (E : Int))
          < 2 ^ (((F.fracBits + 1 : Nat)) : Int) * 2 ^ (F.qMin + (E : Int)) := by gcongr
        _ = 2 ^ ((((F.fracBits + 1 : Nat)) : Int) + (F.qMin + (E : Int))) := (zpow_add₀ two _ _).symm
        _ ≤ _ := by
          apply zpow_le_zpow_right₀ (by norm_num)
          push_cast
          omega
    linarith

/-- A magnitude at least a finite value of the format rounds to at least that value's pattern. -/
theorem Fmt.le_roundMag (F : Fmt) {r : ℚ} {p : Nat} (hp : p ≤ F.infPat) (h : F.magnitude p ≤ r) :
    p ≤ F.roundMag r := by
  rcases le_or_gt r 0 with h0 | h0
  · rcases Nat.eq_zero_or_pos p with rfl | hpp
    · exact Nat.zero_le _
    · have := F.magnitude_pos hpp; linarith
  obtain ⟨Q, m, he, hl, hu, hm⟩ := F.roundMag_parts h0
  obtain ⟨E, M, hpe, hM, hE, hv⟩ := F.magnitude_parts p
  obtain ⟨hm1, hm2⟩ := count_bounds hu hm
  have two : (2 : ℚ) ≠ 0 := by norm_num
  rw [he]
  refine le_min ?_ hp
  rw [hv] at h
  rcases lt_trichotomy Q E with hQ | hQ | hQ
  · exfalso
    have hE' : 2 ^ F.fracBits ≤ M := by omega
    have hM' : (2 : ℚ) ^ (F.fracBits : Int) ≤ M := by
      rw [zpow_natCast]; exact_mod_cast hE'
    have : (2 : ℚ) ^ (F.qMin + (Q : Int) + F.fracBits + 1) ≤ (M : ℚ) * 2 ^ (F.qMin + (E : Int)) := by
      calc (2 : ℚ) ^ (F.qMin + (Q : Int) + F.fracBits + 1)
          ≤ 2 ^ ((F.fracBits : Int) + (F.qMin + (E : Int))) := by
            apply zpow_le_zpow_right₀ (by norm_num); omega
        _ = 2 ^ (F.fracBits : Int) * 2 ^ (F.qMin + (E : Int)) := zpow_add₀ two _ _
        _ ≤ _ := by gcongr
    linarith
  · subst hQ
    have : (M : Int) ≤ (m : Int) := by
      apply le_int_of_half hm
      rw [le_div_iff₀ (by positivity)]
      exact_mod_cast h
    omega
  · have hl' : 2 ^ F.fracBits ≤ m := by
      rcases hl with hl | hl
      · omega
      · exact hm2 hl
    obtain ⟨j, rfl⟩ := Nat.exists_eq_add_of_lt hQ
    have : 2 ^ (F.fracBits + 1) = 2 ^ F.fracBits + 2 ^ F.fracBits := by ring
    have e : (E + j + 1) * 2 ^ F.fracBits = E * 2 ^ F.fracBits + j * 2 ^ F.fracBits + 2 ^ F.fracBits := by ring
    omega

/-- Every finite value of the format rounds to itself. -/
theorem Fmt.roundMag_magnitude (F : Fmt) {p : Nat} (hp : p ≤ F.infPat) :
    F.roundMag (F.magnitude p) = p :=
  le_antisymm (F.roundMag_le le_rfl) (F.le_roundMag hp le_rfl)

/-- Rounding respects the order. -/
theorem Fmt.roundMag_mono (F : Fmt) {r s : ℚ} (h : r ≤ s) : F.roundMag r ≤ F.roundMag s := by
  rcases le_or_gt r 0 with h0 | h0
  · rw [F.roundMag_of_nonpos h0]; exact Nat.zero_le _
  rcases eq_or_lt_of_le h with rfl | hlt
  · exact le_rfl
  have h1 : 0 < s := lt_of_lt_of_le h0 h
  obtain ⟨Q, m, he, hl, hu, hm⟩ := F.roundMag_parts h0
  obtain ⟨Q', m', he', hl', hu', hm'⟩ := F.roundMag_parts h1
  obtain ⟨hm1, hm2⟩ := count_bounds hu hm
  obtain ⟨hm1', hm2'⟩ := count_bounds hu' hm'
  rw [he, he']
  refine min_le_min ?_ le_rfl
  have e2 : 2 ^ (F.fracBits + 1) = 2 ^ F.fracBits + 2 ^ F.fracBits := by ring
  rcases lt_trichotomy Q Q' with hQ | hQ | hQ
  · have : 2 ^ F.fracBits ≤ m' := by
      rcases hl' with h2 | h2
      · omega
      · exact hm2' h2
    obtain ⟨j, rfl⟩ := Nat.exists_eq_add_of_lt hQ
    have e : (Q + j + 1) * 2 ^ F.fracBits = Q * 2 ^ F.fracBits + j * 2 ^ F.fracBits + 2 ^ F.fracBits := by ring
    omega
  · subst hQ
    have hq : (0 : ℚ) < 2 ^ (F.qMin + (Q : Int)) := by positivity
    by_contra hgt
    have hmm : m' + 1 ≤ m := by omega
    have hmq : ((m' : Int) : ℚ) + 1 ≤ ((m : Int) : ℚ) := by exact_mod_cast hmm
    have hrs : r / 2 ^ (F.qMin + (Q : Int)) < s / 2 ^ (F.qMin + (Q : Int)) := by gcongr
    have a1 := (abs_le.mp hm).2
    have a2 := (abs_le.mp hm').1
    linarith
  · exfalso
    have hl2 : (2 : ℚ) ^ (F.qMin + (Q : Int) + F.fracBits) ≤ r := by
      rcases hl with h2 | h2
      · omega
      · exact h2
    have : (2 : ℚ) ^ (F.qMin + (Q' : Int) + F.fracBits + 1) ≤ 2 ^ (F.qMin + (Q : Int) + F.fracBits) :=
      zpow_le_zpow_right₀ (by norm_num) (by omega)
    linarith

/-- Where the rounding stays finite, no value of the format is nearer. -/
theorem Fmt.roundMag_nearest (F : Fmt) {r : ℚ} (hr : 0 ≤ r) (hfin : F.roundMag r < F.infPat) (p : Nat) :
    |F.magnitude (F.roundMag r) - r| ≤ |F.magnitude p - r| := by
  rcases eq_or_lt_of_le hr with rfl | h0
  · simp
  obtain ⟨Q, m, he, hl, hu, hm⟩ := F.roundMag_parts h0
  obtain ⟨hm1, hm2⟩ := count_bounds hu hm
  obtain ⟨E, M, hpe, hM, hE, hv⟩ := F.magnitude_parts p
  have two : (2 : ℚ) ≠ 0 := by norm_num
  have hq : (0 : ℚ) < 2 ^ (F.qMin + (Q : Int)) := by positivity
  have hval : F.magnitude (F.roundMag r) = (m : ℚ) * 2 ^ (F.qMin + (Q : Int)) := by
    have : F.roundMag r = Q * 2 ^ F.fracBits + m := by
      rw [he] at hfin ⊢
      omega
    rw [this]
    refine F.magnitude_of_parts Q m hm1 ?_
    rcases hl with hl | hl
    · exact Or.inl hl
    · exact Or.inr (hm2 hl)
  have scale : ∀ z : ℚ, |z * 2 ^ (F.qMin + (Q : Int)) - r|
      = |z - r / 2 ^ (F.qMin + (Q : Int))| * 2 ^ (F.qMin + (Q : Int)) := by
    intro z
    rw [← abs_of_pos hq, ← abs_mul, abs_of_pos hq, sub_mul, div_mul_cancel₀ _ hq.ne']
  have main : ∀ z : Int, |F.magnitude (F.roundMag r) - r| ≤ |(z : ℚ) * 2 ^ (F.qMin + (Q : Int)) - r| := by
    intro z
    rw [hval, scale, scale]
    have := nearest_of_half hm z
    rw [Int.cast_natCast] at this
    gcongr
  rcases le_or_gt Q E with hQ | hQ
  · obtain ⟨j, rfl⟩ := Nat.exists_eq_add_of_le hQ
    have := main ((M : Int) * 2 ^ j)
    rw [hv]
    convert this using 3
    push_cast
    rw [mul_assoc, ← zpow_natCast (2 : ℚ) j, ← zpow_add₀ two]
    congr 2; ring
  · have hl' : (2 : ℚ) ^ (F.qMin + (Q : Int) + F.fracBits) ≤ r := by
      rcases hl with h2 | h2
      · omega
      · exact h2
    have hM' : (M : ℚ) ≤ 2 ^ (((F.fracBits + 1 : Nat)) : Int) := by
      rw [zpow_natCast]; exact_mod_cast hM.le
    have hle : F.magnitude p ≤ 2 ^ (F.qMin + (Q : Int) + F.fracBits) := by
      rw [hv]
      calc (M : ℚ) * 2 ^ (F.qMin + (E : Int))
          ≤ 2 ^ (((F.fracBits + 1 : Nat)) : Int) * 2 ^ (F.qMin + (E : Int)) := by gcongr
        _ = 2 ^ ((((F.fracBits + 1 : Nat)) : Int) + (F.qMin + (E : Int))) := (zpow_add₀ two _ _).symm
        _ ≤ _ := by
          apply zpow_le_zpow_right₀ (by norm_num)
          push_cast
          omega
    have h1 := main ((2 : Int) ^ F.fracBits)
    have e : (((2 : Int) ^ F.fracBits : Int) : ℚ) * 2 ^ (F.qMin + (Q : Int)) = 2 ^ (F.qMin + (Q : Int) + F.fracBits) := by
      push_cast
      rw [← zpow_natCast (2 : ℚ), ← zpow_add₀ two]
      congr 1; ring
    rw [e] at h1
    refine h1.trans ?_
    rw [abs_sub_comm, abs_sub_comm (F.magnitude p), abs_of_nonneg (by linarith), abs_of_nonneg (by linarith)]
    linarith

end Sys2Proof.Machine
end

