-- ==== Sys2Proof/Laws/Pack.lean ====
section
/-! SUPPORT. Packing and unpacking of the two formats, the order of patterns, and the values that
rounded rationals have. -/

namespace Sys2Proof.Machine

theorem binary64_infPat : binary64.infPat = 0x7FF0000000000000 := by decide +kernel

theorem binary32_infPat : binary32.infPat = 0x7F800000 := by decide +kernel

/-- The values of finite patterns are ordered as the patterns are. -/
theorem Fmt.magnitude_lt_iff (F : Fmt) {p p' : Nat} (hp : p ≤ F.infPat) (hp' : p' ≤ F.infPat) :
    F.magnitude p < F.magnitude p' ↔ p < p' := by
  constructor
  · intro h
    by_contra hle
    have hle : p' ≤ p := by omega
    have h2 := F.roundMag_le h.le
    rw [F.roundMag_magnitude hp] at h2
    have : p = p' := by omega
    subst this
    exact lt_irrefl _ h
  · intro h
    by_contra hle
    have h2 := F.roundMag_le (not_lt.mp hle)
    rw [F.roundMag_magnitude hp'] at h2
    omega

theorem Fmt.magnitude_le_iff (F : Fmt) {p p' : Nat} (hp : p ≤ F.infPat) (hp' : p' ≤ F.infPat) :
    F.magnitude p ≤ F.magnitude p' ↔ p ≤ p' := by
  rw [← not_lt, F.magnitude_lt_iff hp' hp, not_lt]

theorem pack64_toNat {p : Nat} (neg : Bool) (hp : p < 2 ^ 63) :
    (pack64 neg p).toNat = p + if neg then 2 ^ 63 else 0 := by
  simp only [pack64, BitVec.toNat_ofNat]
  cases neg <;> simp <;> omega

theorem pack32_toNat {p : Nat} (neg : Bool) (hp : p < 2 ^ 31) :
    (pack32 neg p).toNat = p + if neg then 2 ^ 31 else 0 := by
  simp only [pack32, BitVec.toNat_ofNat]
  cases neg <;> simp <;> omega

theorem unpack64_pack64 {p : Nat} (neg : Bool) (hp : p < 2 ^ 63) :
    unpack64 (pack64 neg p) = binary64.unpack neg p := by
  have h := pack64_toNat neg hp
  unfold unpack64
  rw [BitVec.msb_eq_decide, h]
  cases neg
  · simp only [Bool.false_eq_true, if_false, Nat.add_zero]
    rw [show decide (2 ^ (64 - 1) ≤ p) = false by simp; omega, Nat.mod_eq_of_lt hp]
  · simp only [if_true]
    rw [show decide (2 ^ (64 - 1) ≤ p + 2 ^ 63) = true by simp, Nat.add_mod_right, Nat.mod_eq_of_lt hp]

theorem unpack32_pack32 {p : Nat} (neg : Bool) (hp : p < 2 ^ 31) :
    unpack32 (pack32 neg p) = binary32.unpack neg p := by
  have h := pack32_toNat neg hp
  unfold unpack32
  rw [BitVec.msb_eq_decide, h]
  cases neg
  · simp only [Bool.false_eq_true, if_false, Nat.add_zero]
    rw [show decide (2 ^ (32 - 1) ≤ p) = false by simp; omega, Nat.mod_eq_of_lt hp]
  · simp only [if_true]
    rw [show decide (2 ^ (32 - 1) ≤ p + 2 ^ 31) = true by simp, Nat.add_mod_right, Nat.mod_eq_of_lt hp]

/-- Every binary64 pattern is its sign and its rest. -/
theorem pack64_self (x : B64) : pack64 x.msb (x.toNat % 2 ^ 63) = x := by
  apply BitVec.eq_of_toNat_eq
  rw [pack64_toNat _ (Nat.mod_lt _ (by norm_num)), BitVec.msb_eq_decide]
  have := x.isLt
  by_cases h : 2 ^ (64 - 1) ≤ x.toNat
  · rw [if_pos (by simpa using h)]; omega
  · rw [if_neg (by simpa using h)]; omega

/-- Every binary32 pattern is its sign and its rest. -/
theorem pack32_self (x : B32) : pack32 x.msb (x.toNat % 2 ^ 31) = x := by
  apply BitVec.eq_of_toNat_eq
  rw [pack32_toNat _ (Nat.mod_lt _ (by norm_num)), BitVec.msb_eq_decide]
  have := x.isLt
  by_cases h : 2 ^ (32 - 1) ≤ x.toNat
  · rw [if_pos (by simpa using h)]; omega
  · rw [if_neg (by simpa using h)]; omega

/-- A finite binary64 datum is a sign and a pattern below infinity. -/
theorem unpack64_eq_fin {x : B64} {neg : Bool} {m : ℚ} (h : unpack64 x = .fin neg m) :
    ∃ p < binary64.infPat, x = pack64 neg p ∧ m = binary64.magnitude p := by
  refine ⟨x.toNat % 2 ^ 63, ?_⟩
  unfold unpack64 Fmt.unpack at h
  split at h
  · rename_i hlt
    cases h
    exact ⟨hlt, (pack64_self x).symm, rfl⟩
  · split at h <;> cases h

/-- A finite binary32 datum is a sign and a pattern below infinity. -/
theorem unpack32_eq_fin {x : B32} {neg : Bool} {m : ℚ} (h : unpack32 x = .fin neg m) :
    ∃ p < binary32.infPat, x = pack32 neg p ∧ m = binary32.magnitude p := by
  refine ⟨x.toNat % 2 ^ 31, ?_⟩
  unfold unpack32 Fmt.unpack at h
  split at h
  · rename_i hlt
    cases h
    exact ⟨hlt, (pack32_self x).symm, rfl⟩
  · split at h <;> cases h

theorem unpack64_pack64_fin {p : Nat} (neg : Bool) (hp : p < binary64.infPat) :
    unpack64 (pack64 neg p) = .fin neg (binary64.magnitude p) := by
  rw [unpack64_pack64 _ (by rw [binary64_infPat] at hp; omega)]
  simp [Fmt.unpack, hp]

theorem unpack32_pack32_fin {p : Nat} (neg : Bool) (hp : p < binary32.infPat) :
    unpack32 (pack32 neg p) = .fin neg (binary32.magnitude p) := by
  rw [unpack32_pack32 _ (by rw [binary32_infPat] at hp; omega)]
  simp [Fmt.unpack, hp]

theorem value64_pack64 {p : Nat} (neg : Bool) (hp : p < binary64.infPat) :
    value64 (pack64 neg p) = some (signed neg (binary64.magnitude p)) := by
  rw [value64, unpack64_pack64_fin neg hp]; rfl

theorem value32_pack32 {p : Nat} (neg : Bool) (hp : p < binary32.infPat) :
    value32 (pack32 neg p) = some (signed neg (binary32.magnitude p)) := by
  rw [value32, unpack32_pack32_fin neg hp]; rfl

theorem value64_eq_some {x : B64} {v : ℚ} (h : value64 x = some v) :
    ∃ neg, ∃ p < binary64.infPat, x = pack64 neg p ∧ v = signed neg (binary64.magnitude p) := by
  unfold value64 at h
  cases hu : unpack64 x with
  | nan => rw [hu] at h; cases h
  | inf n => rw [hu] at h; cases h
  | fin neg m =>
    obtain ⟨p, hp, hx, hm⟩ := unpack64_eq_fin hu
    rw [hu] at h
    cases h
    exact ⟨neg, p, hp, hx, by rw [hm]⟩

/-- A rational between two finite values of the format rounds to a value between them. -/
theorem Fmt.roundMag_between (F : Fmt) {r : ℚ} {p q : Nat} (hp : p ≤ F.infPat) (hq : q < F.infPat)
    (hlo : F.magnitude p ≤ r) (hhi : r ≤ F.magnitude q) :
    F.roundMag r < F.infPat ∧ F.magnitude p ≤ F.magnitude (F.roundMag r) ∧
      F.magnitude (F.roundMag r) ≤ F.magnitude q := by
  have h1 := F.roundMag_le hhi
  have h2 := F.le_roundMag hp hlo
  have h3 : F.roundMag r < F.infPat := lt_of_le_of_lt h1 hq
  exact ⟨h3, (F.magnitude_le_iff hp h3.le).mpr h2, (F.magnitude_le_iff h3.le hq.le).mpr h1⟩

/-- A non-negative rational up to a finite value rounds to a datum with a `+` sign in that range. -/
theorem unpack64_round64 {r : ℚ} {p : Nat} (hp : p < binary64.infPat) (h0 : 0 ≤ r)
    (hr : r ≤ binary64.magnitude p) :
    unpack64 (round64 r) = .fin false (binary64.magnitude (binary64.roundMag r)) ∧
      binary64.magnitude (binary64.roundMag r) ≤ binary64.magnitude p := by
  have h1 := binary64.roundMag_le hr
  have hlt : binary64.roundMag r < binary64.infPat := lt_of_le_of_lt h1 hp
  refine ⟨?_, (binary64.magnitude_le_iff hlt.le hp.le).mpr h1⟩
  rw [round64, if_neg (not_lt.mpr h0), unpack64_pack64_fin _ hlt]

/-- A value of the format rounds to a datum of that value. -/
theorem value64_round64_of_magnitude {p : Nat} (hp : p < binary64.infPat) :
    round64 (binary64.magnitude p) = pack64 false p := by
  rw [round64, if_neg (not_lt.mpr (binary64.magnitude_nonneg p)), binary64.roundMag_magnitude hp.le]

/-- Rounding to binary64 keeps a rational's bounds. -/
theorem value64_round64 {r : ℚ} {p : Nat} (hp : p < binary64.infPat) (hr : |r| ≤ binary64.magnitude p) :
    ∃ v, value64 (round64 r) = some v ∧ |v| ≤ binary64.magnitude p ∧ (0 ≤ r → 0 ≤ v) ∧ (r ≤ 0 → v ≤ 0) := by
  rcases lt_or_ge r 0 with h | h
  · have h1 := binary64.roundMag_le (r := -r) (by rwa [abs_of_neg h] at hr)
    have hlt : binary64.roundMag (-r) < binary64.infPat := lt_of_le_of_lt h1 hp
    have hm := binary64.magnitude_nonneg (binary64.roundMag (-r))
    refine ⟨_, by rw [round64, if_pos h, value64_pack64 _ hlt], ?_, ?_, ?_⟩
    · simp only [signed, if_true, abs_neg, abs_of_nonneg hm]
      exact (binary64.magnitude_le_iff hlt.le hp.le).mpr h1
    · intro h'; linarith
    · intro _; simp only [signed, if_true]; linarith
  · have h1 := binary64.roundMag_le (r := r) (by rwa [abs_of_nonneg h] at hr)
    have hlt : binary64.roundMag r < binary64.infPat := lt_of_le_of_lt h1 hp
    have hm := binary64.magnitude_nonneg (binary64.roundMag r)
    refine ⟨_, by rw [round64, if_neg (not_lt.mpr h), value64_pack64 _ hlt], ?_, ?_, ?_⟩
    · simp only [signed, Bool.false_eq_true, if_false, abs_of_nonneg hm]
      exact (binary64.magnitude_le_iff hlt.le hp.le).mpr h1
    · intro _; simpa [signed] using hm
    · intro h'
      have : r = 0 := le_antisymm h' h
      subst this
      simp [signed]

/-- The conversion to binary32 keeps a finite datum's bounds and sign (rule R12). -/
theorem value32_rne32 {x : B64} {v : ℚ} {p : Nat} (hx : value64 x = some v) (hp : p < binary32.infPat)
    (hv : |v| ≤ binary32.magnitude p) :
    ∃ w, value32 (rne32 x) = some w ∧ |w| ≤ binary32.magnitude p := by
  unfold value64 at hx
  cases hu : unpack64 x with
  | nan => rw [hu] at hx; cases hx
  | inf n => rw [hu] at hx; cases hx
  | fin neg m =>
    obtain ⟨k, hk, hxk, hm⟩ := unpack64_eq_fin hu
    rw [hu] at hx
    cases hx
    have hm0 : 0 ≤ m := by rw [hm]; exact binary64.magnitude_nonneg k
    have habs : |signed neg m| = m := by
      cases neg <;> simp [signed, abs_of_nonneg hm0]
    rw [habs] at hv
    have h1 := binary32.roundMag_le hv
    have hlt : binary32.roundMag m < binary32.infPat := lt_of_le_of_lt h1 hp
    have h2 := binary32.magnitude_nonneg (binary32.roundMag m)
    refine ⟨_, by rw [rne32, hu]; exact value32_pack32 _ hlt, ?_⟩
    have : |signed neg (binary32.magnitude (binary32.roundMag m))| = binary32.magnitude (binary32.roundMag m) := by
      cases neg <;> simp [signed, abs_of_nonneg h2]
    rw [this]
    exact (binary32.magnitude_le_iff hlt.le hp.le).mpr h1

/-- The sum of two finite data is the rounding of the exact sum; a zero sum is a zero. -/
theorem add64_fin {a b : B64} {s t : Bool} {x y : ℚ} (ha : unpack64 a = .fin s x)
    (hb : unpack64 b = .fin t y) :
    add64 a b = if signed s x + signed t y = 0 then pack64 (s && t) 0 else round64 (signed s x + signed t y) := by
  simp only [add64, ha, hb]

/-- The product of two finite data is the rounding of the exact product, its sign theirs combined. -/
theorem mul64_fin {a b : B64} {s t : Bool} {x y : ℚ} (ha : unpack64 a = .fin s x)
    (hb : unpack64 b = .fin t y) :
    mul64 a b = pack64 (s ^^ t) (binary64.roundMag (x * y)) := by
  simp only [mul64, ha, hb]

/-- The quotient of two finite data with a divisor other than zero is the rounding of the exact
quotient, its sign theirs combined. -/
theorem div64_fin {a b : B64} {s t : Bool} {x y : ℚ} (ha : unpack64 a = .fin s x)
    (hb : unpack64 b = .fin t y) (hy : y ≠ 0) :
    div64 a b = pack64 (s ^^ t) (binary64.roundMag (x / y)) := by
  simp only [div64, ha, hb, hy, if_false]

/-- The comparison of two finite data is that of their values. -/
theorem lt64_fin {a b : B64} {x y : ℚ} (ha : value64 a = some x) (hb : value64 b = some y) :
    lt64 a b = decide (x < y) := by
  unfold value64 at ha hb
  cases hua : unpack64 a with
  | nan => rw [hua] at ha; cases ha
  | inf n => rw [hua] at ha; cases ha
  | fin s m =>
    cases hub : unpack64 b with
    | nan => rw [hub] at hb; cases hb
    | inf n => rw [hub] at hb; cases hb
    | fin t k =>
      rw [hua] at ha; rw [hub] at hb
      cases ha; cases hb
      simp [lt64, hua, hub, Datum.lt]

end Sys2Proof.Machine
end

