-- ==== Sys2Proof/Laws/PerInstr.lean ====
section
/-! SUPPORT. Per-instruction families: a well-formed instruction's encoding lies in its row of the opcode
table (rule R77). -/

namespace Sys2Proof.Laws.TableRow

set_option Elab.async false

/-- The encoding of a well-formed instruction has the fixed bits of its row of spec/opcode_table.json:
`(w AND mask(M)) = match(M)` (rule R77). -/
def Statement (i : Instr) : Prop :=
  i.wellFormed = true → (Sys2Proof.tableRow i).fits (encode i).tableBits = true

theorem nop : Statement .nop := by
  unfold Statement
  intro _
  decide +kernel

theorem prepare (rate : B64) : Statement (.prepare rate) := by
  unfold Statement
  intro _
  simp only [tableRow, encode, Words.tableBits]
  decide +kernel

theorem latch : Statement .latch := by
  unfold Statement
  intro _
  decide +kernel

theorem noteon (v : SlotIx) (n : BitVec 8) : Statement (.noteon v n) := by
  unfold Statement
  revert v n
  decide +kernel

theorem kill (v : SlotIx) : Statement (.kill v) := by
  unfold Statement
  revert v
  decide +kernel

theorem tick : Statement .tick := by
  unfold Statement
  intro _
  decide +kernel

theorem read (a : BitVec 8) : Statement (.read a) := by
  unfold Statement
  revert a
  decide +kernel

theorem clrerr (m : BitVec 8) : Statement (.clrerr m) := by
  unfold Statement
  revert m
  decide +kernel

theorem swreset : Statement .swreset := by
  unfold Statement
  intro _
  decide +kernel

theorem setwave (w : B32) : Statement (.setwave w) := by
  unfold Statement
  intro _
  simp only [tableRow, encode, Words.tableBits]
  decide +kernel

theorem sine : Statement .sine := by
  unfold Statement
  intro _
  decide +kernel

theorem saw : Statement .saw := by
  unfold Statement
  intro _
  decide +kernel

theorem square : Statement .square := by
  unfold Statement
  intro _
  decide +kernel

theorem tri : Statement .tri := by
  unfold Statement
  intro _
  decide +kernel

theorem noise : Statement .noise := by
  unfold Statement
  intro _
  decide +kernel

end Sys2Proof.Laws.TableRow
end

