-- ==== Sys2Proof/Laws/Slots.lean ====
section
/-! SUPPORT. The slot file: reading after changing, and equality slot by slot. -/

namespace Sys2Proof.Machine

/-- The eight slot indices. -/
theorem slotIx_cases (v : SlotIx) :
    v = 0 ∨ v = 1 ∨ v = 2 ∨ v = 3 ∨ v = 4 ∨ v = 5 ∨ v = 6 ∨ v = 7 := by
  revert v; decide

@[simp] theorem Slots.get_zero (b : Slots) : b.get 0#3 = b.v0 := rfl
@[simp] theorem Slots.get_one (b : Slots) : b.get 1#3 = b.v1 := rfl
@[simp] theorem Slots.get_two (b : Slots) : b.get 2#3 = b.v2 := rfl
@[simp] theorem Slots.get_three (b : Slots) : b.get 3#3 = b.v3 := rfl
@[simp] theorem Slots.get_four (b : Slots) : b.get 4#3 = b.v4 := rfl
@[simp] theorem Slots.get_five (b : Slots) : b.get 5#3 = b.v5 := rfl
@[simp] theorem Slots.get_six (b : Slots) : b.get 6#3 = b.v6 := rfl
@[simp] theorem Slots.get_seven (b : Slots) : b.get 7#3 = b.v7 := rfl

@[simp] theorem Slots.get_mapIx (f : SlotIx → Slot → Slot) (b : Slots) (v : SlotIx) :
    (b.mapIx f).get v = f v (b.get v) := by
  rcases slotIx_cases v with h | h | h | h | h | h | h | h <;> subst h <;> rfl

@[simp] theorem Slots.get_modify_self (f : Slot → Slot) (b : Slots) (v : SlotIx) :
    (b.modify v f).get v = f (b.get v) := by
  simp [Slots.modify]

theorem Slots.get_modify_of_ne (f : Slot → Slot) (b : Slots) {u v : SlotIx} (h : u ≠ v) :
    (b.modify v f).get u = b.get u := by
  simp [Slots.modify, h]

theorem Slots.get_modify (f : Slot → Slot) (b : Slots) (u v : SlotIx) :
    (b.modify v f).get u = if u = v then f (b.get u) else b.get u := by
  simp [Slots.modify]

theorem Slots.ext_get {b c : Slots} (h : ∀ v, b.get v = c.get v) : b = c := by
  cases b; cases c
  rw [Slots.mk.injEq]
  exact ⟨h 0#3, h 1#3, h 2#3, h 3#3, h 4#3, h 5#3, h 6#3, h 7#3⟩

@[simp] theorem State.slot_reset (v : SlotIx) : State.reset.slot v = Slot.reset := by
  rcases slotIx_cases v with h | h | h | h | h | h | h | h <;> subst h <;> rfl

theorem ofBool_mask_bit : ∀ b7 b6 b5 b4 b3 b2 b1 b0 : Bool,
    let m := BitVec.ofBool b7 ++ BitVec.ofBool b6 ++ BitVec.ofBool b5 ++ BitVec.ofBool b4 ++
      BitVec.ofBool b3 ++ BitVec.ofBool b2 ++ BitVec.ofBool b1 ++ BitVec.ofBool b0
    m.getLsbD 0 = b0 ∧ m.getLsbD 1 = b1 ∧ m.getLsbD 2 = b2 ∧ m.getLsbD 3 = b3 ∧
      m.getLsbD 4 = b4 ∧ m.getLsbD 5 = b5 ∧ m.getLsbD 6 = b6 ∧ m.getLsbD 7 = b7 := by
  decide +kernel

/-- `ACTIVE` shows slot `v`'s active bit at bit `v` (rules R24, R31). -/
theorem State.activeMask_bit (s : State) (v : SlotIx) :
    s.activeMask.getLsbD v.toNat = (s.slot v).active := by
  obtain ⟨h0, h1, h2, h3, h4, h5, h6, h7⟩ := ofBool_mask_bit s.slots.v7.active s.slots.v6.active
    s.slots.v5.active s.slots.v4.active s.slots.v3.active s.slots.v2.active s.slots.v1.active
    s.slots.v0.active
  rcases slotIx_cases v with h | h | h | h | h | h | h | h <;> subst h
  exacts [h0, h1, h2, h3, h4, h5, h6, h7]

/-- Two states whose active bits agree slot by slot have the same mask. -/
theorem State.activeMask_congr {s t : State} (h : ∀ v, (s.slot v).active = (t.slot v).active) :
    s.activeMask = t.activeMask := by
  have h0 := h 0#3; have h1 := h 1#3; have h2 := h 2#3; have h3 := h 3#3
  have h4 := h 4#3; have h5 := h 5#3; have h6 := h 6#3; have h7 := h 7#3
  simp only [State.slot, Slots.get_zero, Slots.get_one, Slots.get_two, Slots.get_three, Slots.get_four,
    Slots.get_five, Slots.get_six, Slots.get_seven] at h0 h1 h2 h3 h4 h5 h6 h7
  simp only [State.activeMask, h0, h1, h2, h3, h4, h5, h6, h7]

end Sys2Proof.Machine
end

