-- ==== Sys2Proof/Laws/State.lean ====
section
/-! SUPPORT. One lemma per field per named update of the state, and the slots of an updated state. -/

namespace Sys2Proof.Machine

@[simp] theorem State.modifySlot_slots (s : State) (v : SlotIx) (f : Slot → Slot) : (s.modifySlot v f).slots = s.slots.modify v f := rfl
@[simp] theorem State.modifySlot_sr (s : State) (v : SlotIx) (f : Slot → Slot) : (s.modifySlot v f).sr = s.sr := rfl
@[simp] theorem State.modifySlot_prepared (s : State) (v : SlotIx) (f : Slot → Slot) : (s.modifySlot v f).prepared = s.prepared := rfl
@[simp] theorem State.modifySlot_wavePend (s : State) (v : SlotIx) (f : Slot → Slot) : (s.modifySlot v f).wavePend = s.wavePend := rfl
@[simp] theorem State.modifySlot_waveCur (s : State) (v : SlotIx) (f : Slot → Slot) : (s.modifySlot v f).waveCur = s.waveCur := rfl
@[simp] theorem State.modifySlot_sticky (s : State) (v : SlotIx) (f : Slot → Slot) : (s.modifySlot v f).sticky = s.sticky := rfl
@[simp] theorem State.modifySlot_outValid (s : State) (v : SlotIx) (f : Slot → Slot) : (s.modifySlot v f).outValid = s.outValid := rfl
@[simp] theorem State.modifySlot_rdata (s : State) (v : SlotIx) (f : Slot → Slot) : (s.modifySlot v f).rdata = s.rdata := rfl
@[simp] theorem State.modifySlot_faults (s : State) (v : SlotIx) (f : Slot → Slot) : (s.modifySlot v f).faults = s.faults := rfl
@[simp] theorem State.modifySlot_noiseCtr (s : State) (v : SlotIx) (f : Slot → Slot) : (s.modifySlot v f).noiseCtr = s.noiseCtr := rfl
@[simp] theorem State.modifySlot_inputs (s : State) (v : SlotIx) (f : Slot → Slot) : (s.modifySlot v f).inputs = s.inputs := rfl

@[simp] theorem State.mapSlots_slots (s : State) (f : SlotIx → Slot → Slot) : (s.mapSlots f).slots = s.slots.mapIx f := rfl
@[simp] theorem State.mapSlots_sr (s : State) (f : SlotIx → Slot → Slot) : (s.mapSlots f).sr = s.sr := rfl
@[simp] theorem State.mapSlots_prepared (s : State) (f : SlotIx → Slot → Slot) : (s.mapSlots f).prepared = s.prepared := rfl
@[simp] theorem State.mapSlots_wavePend (s : State) (f : SlotIx → Slot → Slot) : (s.mapSlots f).wavePend = s.wavePend := rfl
@[simp] theorem State.mapSlots_waveCur (s : State) (f : SlotIx → Slot → Slot) : (s.mapSlots f).waveCur = s.waveCur := rfl
@[simp] theorem State.mapSlots_sticky (s : State) (f : SlotIx → Slot → Slot) : (s.mapSlots f).sticky = s.sticky := rfl
@[simp] theorem State.mapSlots_outValid (s : State) (f : SlotIx → Slot → Slot) : (s.mapSlots f).outValid = s.outValid := rfl
@[simp] theorem State.mapSlots_rdata (s : State) (f : SlotIx → Slot → Slot) : (s.mapSlots f).rdata = s.rdata := rfl
@[simp] theorem State.mapSlots_faults (s : State) (f : SlotIx → Slot → Slot) : (s.mapSlots f).faults = s.faults := rfl
@[simp] theorem State.mapSlots_noiseCtr (s : State) (f : SlotIx → Slot → Slot) : (s.mapSlots f).noiseCtr = s.noiseCtr := rfl
@[simp] theorem State.mapSlots_inputs (s : State) (f : SlotIx → Slot → Slot) : (s.mapSlots f).inputs = s.inputs := rfl

@[simp] theorem State.raise_slots (s : State) (e : Event) : (s.raise e).slots = s.slots := rfl
@[simp] theorem State.raise_sr (s : State) (e : Event) : (s.raise e).sr = s.sr := rfl
@[simp] theorem State.raise_prepared (s : State) (e : Event) : (s.raise e).prepared = s.prepared := rfl
@[simp] theorem State.raise_wavePend (s : State) (e : Event) : (s.raise e).wavePend = s.wavePend := rfl
@[simp] theorem State.raise_waveCur (s : State) (e : Event) : (s.raise e).waveCur = s.waveCur := rfl
@[simp] theorem State.raise_sticky (s : State) (e : Event) : (s.raise e).sticky = setSticky e s.sticky := rfl
@[simp] theorem State.raise_outValid (s : State) (e : Event) : (s.raise e).outValid = s.outValid := rfl
@[simp] theorem State.raise_rdata (s : State) (e : Event) : (s.raise e).rdata = s.rdata := rfl
@[simp] theorem State.raise_faults (s : State) (e : Event) : (s.raise e).faults = s.faults.after e := rfl
@[simp] theorem State.raise_noiseCtr (s : State) (e : Event) : (s.raise e).noiseCtr = s.noiseCtr := rfl
@[simp] theorem State.raise_inputs (s : State) (e : Event) : (s.raise e).inputs = s.inputs := rfl

@[simp] theorem State.clearEvents_slots (s : State) (m : BitVec 8) : (s.clearEvents m).slots = s.slots := rfl
@[simp] theorem State.clearEvents_sr (s : State) (m : BitVec 8) : (s.clearEvents m).sr = s.sr := rfl
@[simp] theorem State.clearEvents_prepared (s : State) (m : BitVec 8) : (s.clearEvents m).prepared = s.prepared := rfl
@[simp] theorem State.clearEvents_wavePend (s : State) (m : BitVec 8) : (s.clearEvents m).wavePend = s.wavePend := rfl
@[simp] theorem State.clearEvents_waveCur (s : State) (m : BitVec 8) : (s.clearEvents m).waveCur = s.waveCur := rfl
@[simp] theorem State.clearEvents_sticky (s : State) (m : BitVec 8) : (s.clearEvents m).sticky = clearSticky m s.sticky := rfl
@[simp] theorem State.clearEvents_outValid (s : State) (m : BitVec 8) : (s.clearEvents m).outValid = s.outValid := rfl
@[simp] theorem State.clearEvents_rdata (s : State) (m : BitVec 8) : (s.clearEvents m).rdata = s.rdata := rfl
@[simp] theorem State.clearEvents_faults (s : State) (m : BitVec 8) : (s.clearEvents m).faults = s.faults := rfl
@[simp] theorem State.clearEvents_noiseCtr (s : State) (m : BitVec 8) : (s.clearEvents m).noiseCtr = s.noiseCtr := rfl
@[simp] theorem State.clearEvents_inputs (s : State) (m : BitVec 8) : (s.clearEvents m).inputs = s.inputs := rfl

@[simp] theorem State.illegalCommand_slots (s : State) : (s.illegalCommand).slots = s.slots := rfl
@[simp] theorem State.illegalCommand_sr (s : State) : (s.illegalCommand).sr = s.sr := rfl
@[simp] theorem State.illegalCommand_prepared (s : State) : (s.illegalCommand).prepared = s.prepared := rfl
@[simp] theorem State.illegalCommand_wavePend (s : State) : (s.illegalCommand).wavePend = s.wavePend := rfl
@[simp] theorem State.illegalCommand_waveCur (s : State) : (s.illegalCommand).waveCur = s.waveCur := rfl
@[simp] theorem State.illegalCommand_sticky (s : State) : (s.illegalCommand).sticky = setSticky .errIllegal s.sticky := rfl
@[simp] theorem State.illegalCommand_outValid (s : State) : (s.illegalCommand).outValid = s.outValid := rfl
@[simp] theorem State.illegalCommand_rdata (s : State) : (s.illegalCommand).rdata = s.rdata := rfl
@[simp] theorem State.illegalCommand_faults (s : State) : (s.illegalCommand).faults = s.faults.after .errIllegal := rfl
@[simp] theorem State.illegalCommand_noiseCtr (s : State) : (s.illegalCommand).noiseCtr = s.noiseCtr := rfl
@[simp] theorem State.illegalCommand_inputs (s : State) : (s.illegalCommand).inputs = s.inputs := rfl

@[simp] theorem State.setRate_slots (s : State) (x : B64) : (s.setRate x).slots = s.slots.mapIx (fun _ y => { y with inc := incr y.freq x }) := rfl
@[simp] theorem State.setRate_sr (s : State) (x : B64) : (s.setRate x).sr = x := rfl
@[simp] theorem State.setRate_prepared (s : State) (x : B64) : (s.setRate x).prepared = true := rfl
@[simp] theorem State.setRate_wavePend (s : State) (x : B64) : (s.setRate x).wavePend = s.wavePend := rfl
@[simp] theorem State.setRate_waveCur (s : State) (x : B64) : (s.setRate x).waveCur = s.waveCur := rfl
@[simp] theorem State.setRate_sticky (s : State) (x : B64) : (s.setRate x).sticky = s.sticky := rfl
@[simp] theorem State.setRate_outValid (s : State) (x : B64) : (s.setRate x).outValid = s.outValid := rfl
@[simp] theorem State.setRate_rdata (s : State) (x : B64) : (s.setRate x).rdata = s.rdata := rfl
@[simp] theorem State.setRate_faults (s : State) (x : B64) : (s.setRate x).faults = s.faults := rfl
@[simp] theorem State.setRate_noiseCtr (s : State) (x : B64) : (s.setRate x).noiseCtr = s.noiseCtr := rfl
@[simp] theorem State.setRate_inputs (s : State) (x : B64) : (s.setRate x).inputs = s.inputs := rfl

@[simp] theorem State.resetBlock_slots (s : State) : (s.resetBlock).slots = State.reset.slots := rfl
@[simp] theorem State.resetBlock_sr (s : State) : (s.resetBlock).sr = State.reset.sr := rfl
@[simp] theorem State.resetBlock_prepared (s : State) : (s.resetBlock).prepared = State.reset.prepared := rfl
@[simp] theorem State.resetBlock_wavePend (s : State) : (s.resetBlock).wavePend = State.reset.wavePend := rfl
@[simp] theorem State.resetBlock_waveCur (s : State) : (s.resetBlock).waveCur = State.reset.waveCur := rfl
@[simp] theorem State.resetBlock_sticky (s : State) : (s.resetBlock).sticky = State.reset.sticky := rfl
@[simp] theorem State.resetBlock_outValid (s : State) : (s.resetBlock).outValid = State.reset.outValid := rfl
@[simp] theorem State.resetBlock_rdata (s : State) : (s.resetBlock).rdata = State.reset.rdata := rfl
@[simp] theorem State.resetBlock_faults (s : State) : (s.resetBlock).faults = s.faults := rfl
@[simp] theorem State.resetBlock_noiseCtr (s : State) : (s.resetBlock).noiseCtr = s.noiseCtr := rfl
@[simp] theorem State.resetBlock_inputs (s : State) : (s.resetBlock).inputs = s.inputs := rfl

@[simp] theorem State.generate_slots (s : State) (P : Config.Params) (w : Wave) : (s.generate P w).slots = s.slots.mapIx (fun v x => if x.active then { x with out := gen P w x.phase (noiseSample s.noiseCtr v) } else x) := rfl
@[simp] theorem State.generate_sr (s : State) (P : Config.Params) (w : Wave) : (s.generate P w).sr = s.sr := rfl
@[simp] theorem State.generate_prepared (s : State) (P : Config.Params) (w : Wave) : (s.generate P w).prepared = s.prepared := rfl
@[simp] theorem State.generate_wavePend (s : State) (P : Config.Params) (w : Wave) : (s.generate P w).wavePend = s.wavePend := rfl
@[simp] theorem State.generate_waveCur (s : State) (P : Config.Params) (w : Wave) : (s.generate P w).waveCur = s.waveCur := rfl
@[simp] theorem State.generate_sticky (s : State) (P : Config.Params) (w : Wave) : (s.generate P w).sticky = s.sticky := rfl
@[simp] theorem State.generate_outValid (s : State) (P : Config.Params) (w : Wave) : (s.generate P w).outValid = s.outValid := rfl
@[simp] theorem State.generate_rdata (s : State) (P : Config.Params) (w : Wave) : (s.generate P w).rdata = s.rdata := rfl
@[simp] theorem State.generate_faults (s : State) (P : Config.Params) (w : Wave) : (s.generate P w).faults = s.faults := rfl
@[simp] theorem State.generate_noiseCtr (s : State) (P : Config.Params) (w : Wave) : (s.generate P w).noiseCtr = (if w = .noise then s.noiseCtr + 1 else s.noiseCtr) := rfl
@[simp] theorem State.generate_inputs (s : State) (P : Config.Params) (w : Wave) : (s.generate P w).inputs = s.inputs := rfl

@[simp] theorem State.advance_slots (s : State) : (s.advance).slots = s.slots.mapIx (fun _ x => advanceLane x) := rfl
@[simp] theorem State.advance_sr (s : State) : (s.advance).sr = s.sr := rfl
@[simp] theorem State.advance_prepared (s : State) : (s.advance).prepared = s.prepared := rfl
@[simp] theorem State.advance_wavePend (s : State) : (s.advance).wavePend = s.wavePend := rfl
@[simp] theorem State.advance_waveCur (s : State) : (s.advance).waveCur = s.waveCur := rfl
@[simp] theorem State.advance_sticky (s : State) : (s.advance).sticky = s.sticky := rfl
@[simp] theorem State.advance_outValid (s : State) : (s.advance).outValid = s.activeMask := rfl
@[simp] theorem State.advance_rdata (s : State) : (s.advance).rdata = s.rdata := rfl
@[simp] theorem State.advance_faults (s : State) : (s.advance).faults = s.faults := rfl
@[simp] theorem State.advance_noiseCtr (s : State) : (s.advance).noiseCtr = s.noiseCtr := rfl
@[simp] theorem State.advance_inputs (s : State) : (s.advance).inputs = s.inputs := rfl

@[simp] theorem State.raiseIf_slots (s : State) (c : Bool) (e : Event) : (s.raiseIf c e).slots = s.slots := by
  cases c <;> rfl
@[simp] theorem State.raiseIf_sr (s : State) (c : Bool) (e : Event) : (s.raiseIf c e).sr = s.sr := by
  cases c <;> rfl
@[simp] theorem State.raiseIf_prepared (s : State) (c : Bool) (e : Event) : (s.raiseIf c e).prepared = s.prepared := by
  cases c <;> rfl
@[simp] theorem State.raiseIf_wavePend (s : State) (c : Bool) (e : Event) : (s.raiseIf c e).wavePend = s.wavePend := by
  cases c <;> rfl
@[simp] theorem State.raiseIf_waveCur (s : State) (c : Bool) (e : Event) : (s.raiseIf c e).waveCur = s.waveCur := by
  cases c <;> rfl
@[simp] theorem State.raiseIf_sticky (s : State) (c : Bool) (e : Event) : (s.raiseIf c e).sticky = if c then setSticky e s.sticky else s.sticky := by
  cases c <;> rfl
@[simp] theorem State.raiseIf_outValid (s : State) (c : Bool) (e : Event) : (s.raiseIf c e).outValid = s.outValid := by
  cases c <;> rfl
@[simp] theorem State.raiseIf_rdata (s : State) (c : Bool) (e : Event) : (s.raiseIf c e).rdata = s.rdata := by
  cases c <;> rfl
@[simp] theorem State.raiseIf_faults (s : State) (c : Bool) (e : Event) : (s.raiseIf c e).faults = if c then s.faults.after e else s.faults := by
  cases c <;> rfl
@[simp] theorem State.raiseIf_noiseCtr (s : State) (c : Bool) (e : Event) : (s.raiseIf c e).noiseCtr = s.noiseCtr := by
  cases c <;> rfl
@[simp] theorem State.raiseIf_inputs (s : State) (c : Bool) (e : Event) : (s.raiseIf c e).inputs = s.inputs := by
  cases c <;> rfl

@[simp] theorem State.noteOn_sr (s : State) (P : Config.Params) (v : SlotIx) (n : BitVec 8) : (s.noteOn P v n).sr = s.sr := by
  simp [State.noteOn]
@[simp] theorem State.noteOn_prepared (s : State) (P : Config.Params) (v : SlotIx) (n : BitVec 8) : (s.noteOn P v n).prepared = s.prepared := by
  simp [State.noteOn]
@[simp] theorem State.noteOn_wavePend (s : State) (P : Config.Params) (v : SlotIx) (n : BitVec 8) : (s.noteOn P v n).wavePend = s.wavePend := by
  simp [State.noteOn]
@[simp] theorem State.noteOn_waveCur (s : State) (P : Config.Params) (v : SlotIx) (n : BitVec 8) : (s.noteOn P v n).waveCur = s.waveCur := by
  simp [State.noteOn]
@[simp] theorem State.noteOn_outValid (s : State) (P : Config.Params) (v : SlotIx) (n : BitVec 8) : (s.noteOn P v n).outValid = s.outValid := by
  simp [State.noteOn]
@[simp] theorem State.noteOn_rdata (s : State) (P : Config.Params) (v : SlotIx) (n : BitVec 8) : (s.noteOn P v n).rdata = s.rdata := by
  simp [State.noteOn]
@[simp] theorem State.noteOn_noiseCtr (s : State) (P : Config.Params) (v : SlotIx) (n : BitVec 8) : (s.noteOn P v n).noiseCtr = s.noiseCtr := by
  simp [State.noteOn]
@[simp] theorem State.noteOn_inputs (s : State) (P : Config.Params) (v : SlotIx) (n : BitVec 8) : (s.noteOn P v n).inputs = s.inputs := by
  simp [State.noteOn]

@[simp] theorem State.noteOn_sticky (s : State) (P : Config.Params) (v : SlotIx) (n : BitVec 8) :
    (s.noteOn P v n).sticky = if noteClamped n then setSticky .infNoteClamp s.sticky else s.sticky := by
  simp [State.noteOn]

@[simp] theorem State.noteOn_faults (s : State) (P : Config.Params) (v : SlotIx) (n : BitVec 8) :
    (s.noteOn P v n).faults = s.faults := by
  simp [State.noteOn, FaultRecord.after, Event.fault]

/-- Slot `u` after `NOTEON v, n` (rule R133). -/
@[simp] theorem State.noteOn_slot (s : State) (P : Config.Params) (u v : SlotIx) (n : BitVec 8) :
    (s.noteOn P v n).slot u =
      if u = v then
        { s.slot u with
          note := clampNote n
          freq := P.etHz (clampNote n)
          inc := s.incFor (P.etHz (clampNote n))
          phase := 0
          active := true }
      else s.slot u := by
  simp [State.noteOn, State.slot, Slots.get_modify]

@[simp] theorem State.modifySlot_slot (s : State) (f : Slot → Slot) (u v : SlotIx) :
    (s.modifySlot v f).slot u = if u = v then f (s.slot u) else s.slot u := by
  simp [State.slot, Slots.get_modify]

@[simp] theorem State.mapSlots_slot (s : State) (f : SlotIx → Slot → Slot) (u : SlotIx) :
    (s.mapSlots f).slot u = f u (s.slot u) := by
  simp [State.slot]

@[simp] theorem State.raise_slot (s : State) (e : Event) (u : SlotIx) : (s.raise e).slot u = s.slot u := rfl

@[simp] theorem State.raiseIf_slot (s : State) (c : Bool) (e : Event) (u : SlotIx) :
    (s.raiseIf c e).slot u = s.slot u := by
  simp [State.slot]

@[simp] theorem State.setRate_slot (s : State) (x : B64) (u : SlotIx) :
    (s.setRate x).slot u = { s.slot u with inc := incr (s.slot u).freq x } := by
  simp [State.slot]

@[simp] theorem State.clearEvents_slot (s : State) (m : BitVec 8) (u : SlotIx) :
    (s.clearEvents m).slot u = s.slot u := rfl

@[simp] theorem State.illegalCommand_slot (s : State) (u : SlotIx) :
    s.illegalCommand.slot u = s.slot u := rfl

@[simp] theorem State.resetBlock_slot (s : State) (u : SlotIx) : s.resetBlock.slot u = Slot.reset := by
  simpa [State.slot] using State.slot_reset u

/-- Slot `u` after a waveform operation (rules R101, R135). -/
@[simp] theorem State.generate_slot (s : State) (P : Config.Params) (w : Wave) (u : SlotIx) :
    (s.generate P w).slot u =
      if (s.slot u).active then
        { s.slot u with out := gen P w (s.slot u).phase (noiseSample s.noiseCtr u) }
      else s.slot u := by
  simp only [State.slot, State.generate_slots, Slots.get_mapIx]
  rfl

/-- Slot `u` after the first part of `TICK` (rule R135). -/
@[simp] theorem State.advance_slot (s : State) (u : SlotIx) :
    s.advance.slot u = advanceLane (s.slot u) := by
  simp [State.slot]

@[simp] theorem advanceLane_active (x : Slot) : (advanceLane x).active = x.active := by
  unfold advanceLane; split <;> rfl

/-- `TICK` while prepared is the advance and then the waveform operation `WAVE_CUR` selects. -/
theorem State.tick_prepared (s : State) (P : Config.Params) (h : s.prepared = true) :
    s.tick P = s.advance.generate P s.waveCur := by
  simp [State.tick, h]

/-- `TICK` while unprepared raises `ERR_UNPREP` and clears `out_valid` (rule R135). -/
theorem State.tick_unprepared (s : State) (P : Config.Params) (h : s.prepared = false) :
    s.tick P = { s.raise .errUnprep with outValid := 0 } := by
  simp [State.tick, h]

/-- Two states are equal when every slot and every other field is. -/
theorem State.ext_slot {s t : State} (hslot : ∀ v, s.slot v = t.slot v) (hsr : s.sr = t.sr)
    (hprep : s.prepared = t.prepared) (hpend : s.wavePend = t.wavePend) (hcur : s.waveCur = t.waveCur)
    (hsticky : s.sticky = t.sticky) (hvalid : s.outValid = t.outValid) (hrdata : s.rdata = t.rdata)
    (hfaults : s.faults = t.faults) (hctr : s.noiseCtr = t.noiseCtr) (hin : s.inputs = t.inputs) :
    s = t := by
  have hs : s.slots = t.slots := Slots.ext_get hslot
  cases s; cases t
  simp_all

end Sys2Proof.Machine
end

