-- ==== Sys2Proof/Laws/Step.lean ====
section
/-! SUPPORT. What the event bits, the fault record, a noise draw, each instruction and one step can do,
said once. -/

namespace Sys2Proof.Machine

/-! ### Event bits and the fault record -/

/-- A set event bit, bit by bit (rules R201, R203). -/
theorem setSticky_bit (e : Event) (b : BitVec 7) {i : Nat} (hi : i < 7) :
    (setSticky e b).getLsbD i = (b.getLsbD i || decide (i = e.bit)) := by
  revert b i
  cases e <;> decide +kernel

/-- A clear mask, bit by bit (rule R166). -/
theorem clearSticky_bit (m : BitVec 8) (b : BitVec 7) {i : Nat} (hi : i < 7) :
    (clearSticky m b).getLsbD i = (b.getLsbD i && !m.getLsbD i) := by
  simp [clearSticky, hi]

/-- Raising an event under a condition sets its bit under that condition and no other (rule R201). -/
theorem stickyAfter_of_eq {s t : State} {e : Event} {c : Bool}
    (h : t.sticky = if c then setSticky e s.sticky else s.sticky) : StickyAfter s t e.bit c := by
  intro i hi
  cases c <;> simp [h, setSticky_bit _ _ hi]

/-- Which faults stand recorded after an event (rule R206). -/
theorem FaultRecord.has_after (e : Event) (r : FaultRecord) (f : Fault) :
    (r.after e).has f = (r.has f || decide (e.fault = some f)) := by
  cases e <;> cases f <;> simp [FaultRecord.after, FaultRecord.add, FaultRecord.has, Event.fault]

/-! ### Noise -/

/-- A noise draw is a pattern of the set of rule R106, whatever the free value is (log 5). -/
theorem noiseSample_range (k : Nat) (v : SlotIx) :
    ∃ x, value32 (noiseSample k v) = some x ∧ -1 ≤ x ∧ x < 1 := by
  unfold noiseSample
  split
  · rename_i h
    unfold admissibleNoise at h
    split at h
    · rename_i x hx
      exact ⟨x, hx, of_decide_eq_true h⟩
    · cases h
  · exact ⟨0, by decide +kernel, by norm_num, by norm_num⟩

/-! ### Instructions -/

theorem exec_latch (s : State) :
    exec .latch s =
      .next { s.raiseIf (sel s.wavePend).2 .infWaveClamp with waveCur := (sel s.wavePend).1 } := rfl

theorem exec_noteon (v : SlotIx) (n : BitVec 8) (s : State) :
    exec (.noteon v n) s = .next (s.noteOn hardware v n) := rfl

theorem exec_kill (v : SlotIx) (s : State) :
    exec (.kill v) s = .next (s.modifySlot v fun x => { x with active := false }) := rfl

theorem exec_tick (s : State) : exec .tick s = .next (s.tick hardware) := rfl

theorem exec_swreset (s : State) : exec .swreset s = .next s.resetBlock := rfl

theorem exec_setwave (w : B32) (s : State) : exec (.setwave w) s = .next { s with wavePend := w } := rfl

/-- Each waveform operation is the generator stage of its waveform (log 1). -/
theorem exec_wave (w : Wave) (s : State) : exec w.instr s = .next (s.generate hardware w) := by
  cases w <;> rfl

theorem exec_prepare_nan {d : B64} (s : State) (h : isNaN64 d = true) :
    exec (.prepare d) s = .next (s.raise .errSrNan) := if_pos h

theorem exec_prepare_rate {d : B64} (s : State) (h : isNaN64 d = false) :
    exec (.prepare d) s =
      .next ((s.raiseIf (clampSr d).2 .infSrClamp).setRate (clampSr d).1) :=
  if_neg (by simp [h])

theorem exec_read_mapped {a : BitVec 8} (s : State) (h : reservedAddr a = false) :
    exec (.read a) s = .next { s with rdata := s.reg a } := if_neg (by simp [h])

theorem exec_read_reserved {a : BitVec 8} (s : State) (h : reservedAddr a = true) :
    exec (.read a) s = .next { s.raise .errBadaddr with rdata := 0 } := if_pos h

theorem exec_clrerr_legal {m : BitVec 8} (s : State) (h : m.getLsbD 7 = false) :
    exec (.clrerr m) s = .next (s.clearEvents m) :=
  if_neg (by rw [h]; exact Bool.false_ne_true)

theorem exec_clrerr_illegal {m : BitVec 8} (s : State) (h : m.getLsbD 7 = true) :
    exec (.clrerr m) s = .next s.illegalCommand := if_pos h

/-- Every instruction goes on to a next state (rules R56, R200). -/
theorem exec_goes_on (i : Instr) (s : State) : ∃ t, exec i s = .next t := by
  cases i with
  | prepare d =>
    cases h : isNaN64 d
    · exact ⟨_, exec_prepare_rate s h⟩
    · exact ⟨_, exec_prepare_nan s h⟩
  | read a =>
    cases h : reservedAddr a
    · exact ⟨_, exec_read_mapped s h⟩
    · exact ⟨_, exec_read_reserved s h⟩
  | clrerr m =>
    cases h : m.getLsbD 7
    · exact ⟨_, exec_clrerr_legal s h⟩
    · exact ⟨_, exec_clrerr_illegal s h⟩
  | _ => exact ⟨_, rfl⟩

/-! ### Steps -/

/-- All that a step can do: wait; run a decoded command; refuse an illegal word; store the parameter;
ignore another block's parameter; or reset. -/
theorem step_cases {s t : State} (h : step s = .next t) :
    (s.inputs = [] ∧ t = s) ∨
    (∃ rest, s.inputs.tail = rest ∧
      ((∃ cmd data i, s.inputs = .command cmd data :: rest ∧ decodeCommand cmd data = .ok i ∧
          exec i { s with inputs := rest } = .next t) ∨
        (∃ cmd data e, s.inputs = .command cmd data :: rest ∧ decodeCommand cmd data = .error e ∧
          t = State.illegalCommand { s with inputs := rest }) ∨
        (∃ w, s.inputs = .param 0 w :: rest ∧ t = { s with inputs := rest, wavePend := w }) ∨
        (∃ a w, s.inputs = .param a w :: rest ∧ a ≠ 0 ∧ t = { s with inputs := rest }) ∨
        (s.inputs = .rst :: rest ∧ t = State.resetBlock { s with inputs := rest }))) := by
  unfold step takeInput at h
  split at h
  · rename_i hi
    exact .inl ⟨hi, by cases h; rfl⟩
  · rename_i e rest hi
    refine .inr ⟨rest, by rw [hi]; rfl, ?_⟩
    cases e with
    | command cmd data =>
      simp only [serve, serveCommand] at h
      split at h
      · rename_i i hd
        exact .inl ⟨cmd, data, i, hi, hd, h⟩
      · rename_i e hd
        exact .inr (.inl ⟨cmd, data, e, hi, hd, by cases h; rfl⟩)
    | param a w =>
      by_cases ha : a = 0
      · subst ha
        refine .inr (.inr (.inl ⟨w, hi, ?_⟩))
        cases h; rfl
      · refine .inr (.inr (.inr (.inl ⟨a, w, hi, ha, ?_⟩)))
        simp only [serve, serveParam, decodeParam, if_neg ha] at h
        cases h; rfl
    | rst => exact .inr (.inr (.inr (.inr ⟨hi, by cases h; rfl⟩)))

end Sys2Proof.Machine
end

