-- ==== Sys2Proof/Tests/Slice0.lean ====
section
/-! SUPPORT. Small tests, their expected values from spec/95_test_vectors.md, and for every statement with
hypotheses a state and operands that meet them. -/

namespace Sys2Proof.Tests

open Sys2Proof.Machine

-- Many small kernel evaluations in one file: one after the other, so that they do not each hold a thread.
set_option Elab.async false

/-! ### Helpers -/

/-- The state an outcome goes on to. -/
def goesTo : Host.Outcome State Fault Refusal → Option State
  | .next t => some t
  | _ => none

/-- 44100.0 and 1760.0. -/
def rate44100 : B64 := 0x40E5888000000000
def rate1760 : B64 := 0x409B800000000000

/-- Prepared at 44100.0, nothing active. -/
def ready : State := State.reset.setRate rate44100

/-- Note 69 on slot 0 at 1760.0, where the increment is a quarter of a cycle. -/
def quarter : State := (State.reset.setRate rate1760).noteOn hardware 0 69

/-- `quarter` with the noise selected. -/
def noisy : State := { quarter with waveCur := .noise }

/-- A state with the given events to come. -/
def presented (es : List Input) (s : State) : State := { s with inputs := es }

/-! ### Well-formedness -/

theorem test_wellformed_refuses_mask_bit7 :
    Instr.wellFormed (.clrerr 0x80) = false ∧ Instr.wellFormed (.clrerr 0xFF) = false ∧
    Instr.wellFormed (.clrerr 0x7F) = true := by decide

/-! ### Decoding, words written out field by field: OP, RSV, V, IMM8 (rules R71, R77) -/

theorem test_decode_control_family :
    decodeCommand (0b0000#4 ++ 0b00000000000000000#17 ++ 0b000#3 ++ 0b00000000#8) 7 = .ok .nop ∧
    decodeCommand (0b0001#4 ++ 0b00000000000000000#17 ++ 0b000#3 ++ 0b00000000#8) rate1760 =
      .ok (.prepare 0x409B800000000000) ∧
    decodeCommand (0b0010#4 ++ 0b00000000000000000#17 ++ 0b000#3 ++ 0b00000000#8) 0 = .ok .latch ∧
    decodeCommand (0b0110#4 ++ 0b00000000000000000#17 ++ 0b000#3 ++ 0b00101011#8) 0 =
      .ok (.read 0x2B) ∧
    decodeCommand (0b0111#4 ++ 0b00000000000000000#17 ++ 0b000#3 ++ 0b01111111#8) 0 =
      .ok (.clrerr 0x7F) ∧
    decodeCommand (0b1000#4 ++ 0b00000000000000000#17 ++ 0b000#3 ++ 0b00000000#8) 0 =
      .ok .swreset := by decide

/-- V-NOTEON rows 4 and 6, V-KILL row 2. -/
theorem test_decode_voice_family :
    decodeCommand (0b0011#4 ++ 0b00000000000000000#17 ++ 0b101#3 ++ 0b01111111#8) 0 =
      .ok (.noteon 5 127) ∧
    decodeCommand (0b0011#4 ++ 0b00000000000000000#17 ++ 0b101#3 ++ 0b11111111#8) 0 =
      .ok (.noteon 5 255) ∧
    decodeCommand (0b0100#4 ++ 0b00000000000000000#17 ++ 0b111#3 ++ 0b00000000#8) 0 = .ok (.kill 7) ∧
    decodeCommand (0b0101#4 ++ 0b00000000000000000#17 ++ 0b000#3 ++ 0b00000000#8) 9 = .ok .tick := by
  decide

theorem test_decode_param_and_selector :
    decodeParam 0b0000 0x40200000 = .ok (.setwave 0x40200000) ∧
    decodeParam 0b0011 0x40200000 = .error .foreignParam ∧
    decodeSelect 0b000 = .ok .sine ∧ decodeSelect 0b010 = .ok .square ∧ decodeSelect 0b011 = .ok .tri ∧
    decodeSelect 0b111 = .error .unusedCode := by decide

/-- V-ILLEGAL: each word is refused for the reason the table gives. -/
theorem test_decode_illegal :
    decodeCommand 0x90000000 0 = .error .reservedOpcode ∧
    decodeCommand 0xF0000000 0 = .error .reservedOpcode ∧
    decodeCommand 0x10000800 0 = .error .reservedBits ∧
    decodeCommand 0x38000045 0 = .error .reservedBits ∧
    decodeCommand 0x00000001 0 = .error .immField ∧ decodeCommand 0x40000301 0 = .error .immField ∧
    decodeCommand 0x700000FF 0 = .error .immField ∧ decodeCommand 0x80000001 0 = .error .immField ∧
    decodeCommand 0x50000100 0 = .error .slotField ∧ decodeCommand 0x60000100 0 = .error .slotField := by
  decide

/-- The host's numbering: 32-bit command words, the 4-bit parameter address, 3-bit selector codes. -/
theorem test_decode_table_words :
    decodeTableWord 32 0x30000545 = some (.noteon 5 69) ∧ decodeTableWord 32 0x90000000 = none ∧
    decodeTableWord 4 0 = some (.setwave 0) ∧ decodeTableWord 3 0 = some .sine ∧
    decodeTableWord 3 3 = some .tri ∧ decodeTableWord 8 4 = some .noise ∧
    decodeTableWord 8 0 = some (.setwave 0) := by decide

/-! ### Instructions -/

/-- V-PREPARE, rows 44100.0 and +inf, from reset with note 69 on slot 0. -/
theorem test_prepare_increment :
    ((goesTo (exec (.prepare rate44100) (State.reset.noteOn hardware 0 69))).map
      fun t => (t.sr, (t.slot 0).inc, t.status)) =
      some (0x40E5888000000000, 0x3FB00C6938F15E29, 0x101) ∧
    ((goesTo (exec (.prepare 0x7FF0000000000000) (State.reset.noteOn hardware 0 69))).map
      fun t => (t.sr, (t.slot 0).inc, t.status)) =
      some (0x4130000000000000, 0x3F659933FC6A96C1, 0x100101) := by decide +kernel

/-- V-PREPARE, negative signalling NaN. -/
theorem test_prepare_nan :
    ((goesTo (exec (.prepare 0xFFF0000000000001) (State.reset.noteOn hardware 0 69))).map
      fun t => (t.sr, t.prepared, (t.slot 0).inc, t.status)) = some (0, false, 0, 0x20001) := by
  decide +kernel

/-- V-LATCH rows 1 and 4. -/
theorem test_latch_rounds :
    ((goesTo (exec .latch { State.reset with wavePend := 0x40200000 })).map
      fun t => (t.waveCur, t.status)) = some (.tri, 0x400000) ∧
    ((goesTo (exec .latch { State.reset with wavePend := 0x7FC00000, waveCur := .saw })).map
      fun t => (t.waveCur, t.wavePend)) = some (.sine, 0x7FC00000) := by decide +kernel

/-- V-SEL: rows whose neighbour rounds the other way, and the upper clamp. -/
theorem test_sel_ties :
    sel 0x3EFFFFFF = (.sine, true) ∧ sel 0x3F000000 = (.saw, true) ∧ sel 0x40400000 = (.tri, false) ∧
    sel 0x40600000 = (.noise, true) ∧ sel 0x40833333 = (.noise, true) ∧ sel 0x80000000 = (.sine, false) := by
  decide +kernel

/-- V-NOTEON row 5. -/
theorem test_noteon_clamps :
    ((goesTo (exec (.noteon 5 128) ready)).map
      fun t => ((t.slot 5).note, (t.slot 5).freq, (t.slot 5).inc, t.status)) =
      some (127, 0x40C87FED4E47ADFF, 0x3FFC985B320136D4, 0x200120) := by decide +kernel

/-- V-NOTEON row 7: unprepared, no error. -/
theorem test_noteon_unprepared :
    ((goesTo (exec (.noteon 7 69) State.reset)).map fun t => ((t.slot 7).inc, t.status)) =
      some (0, 0x80) := by decide +kernel

/-- V-KILL row 1 (the phase kept). -/
theorem test_kill_keeps_phase :
    ((goesTo (exec (.kill 0) (quarter.modifySlot 0 fun x => { x with phase := 0x400921FB54442D18 }))).map
      fun t => (t.status, (t.slot 0).phase, (t.slot 0).note)) = some (0x100, 0x400921FB54442D18, 69) := by
  decide +kernel

/-- V-TICK row 2. -/
theorem test_tick_wraps :
    ((goesTo (exec .tick
      ({ quarter with waveCur := .saw }.modifySlot 0 fun x => { x with phase := 0x4012D97C7F3321D2 }))).map
      fun t => ((t.slot 0).phase, (t.slot 0).out, t.outValid)) = some (0, 0xBF800000, 0x01) := by
  decide +kernel

/-- V-TICK row 3. -/
theorem test_tick_removes_cycle :
    ((goesTo (exec .tick
      { ((State.reset.setRate 0x40BF400000000000).noteOn hardware 7 127) with waveCur := .tri })).map
      fun t => ((t.slot 7).phase, (t.slot 7).out)) = some (0x400C8CC4B2E49820, 0x3F3A62FE) := by
  decide +kernel

/-- V-TICK row 1 and V-READ rows 1, 2. -/
theorem test_tick_unprepared :
    ((goesTo (exec .tick State.reset)).map fun t => (t.status, t.outValid)) = some (0x40000, 0) := by
  decide +kernel

theorem test_read_ident :
    ((goesTo (exec (.read 0x2C) State.reset)).map fun t => (t.rdata, t.status)) =
      some (0x000000084F534331, 0) := by decide +kernel

theorem test_read_reserved :
    ((goesTo (exec (.read 0x2D) State.reset)).map fun t => (t.rdata, t.status)) = some (0, 0x80000) := by
  decide +kernel

/-- V-CLRERR rows 2 and 5, in the sticky bits. -/
theorem test_clrerr_mask :
    ((goesTo (exec (.clrerr 0x49) { State.reset with sticky := 0x3F })).map (·.sticky)) = some 0x36 ∧
    ((goesTo (exec (.clrerr 0x80) { State.reset with sticky := 0x20 })).map (·.sticky)) = some 0x21 := by
  decide +kernel

/-- V-SWRESET. -/
theorem test_swreset :
    ((goesTo (exec .swreset quarter)).map fun t => (t.status, t.sr, (t.slot 0).freq)) = some (0, 0, 0) := by
  decide +kernel

/-- V-SETWAVE row 3: stored, the selector in use kept. -/
theorem test_setwave_pending :
    ((goesTo (exec (.setwave 0x40800000) State.reset)).map fun t => (t.wavePend, t.waveCur)) =
      some (0x40800000, .sine) := by decide +kernel

/-- Slot 0 active at the phase 1.0. -/
def atOne : State := quarter.modifySlot 0 fun x => { x with phase := 0x3FF0000000000000 }

/-- V-GEN, phase 1.0. -/
theorem test_sine_of_one :
    ((goesTo (exec .sine atOne)).map fun t => (t.slot 0).out) = some 0x3F576AA4 := by decide +kernel

theorem test_saw_of_one :
    ((goesTo (exec .saw atOne)).map fun t => (t.slot 0).out) = some 0xBF2E833E := by decide +kernel

theorem test_square_of_one :
    ((goesTo (exec .square atOne)).map fun t => (t.slot 0).out) = some 0x3F800000 := by decide +kernel

theorem test_tri_of_one :
    ((goesTo (exec .tri atOne)).map fun t => (t.slot 0).out) = some 0xBEBA0CF9 := by decide +kernel

/-- V-GEN, pred(PI): the sine below 1e-15, and the square still at +1.0. -/
theorem test_samples_below_pi :
    sineSample hardware 0x400921FB54442D17 = 0x26234C4C ∧ squareSample 0x400921FB54442D17 = 0x3F800000 ∧
    squareSample 0x400921FB54442D18 = 0xBF800000 := by decide +kernel

/-- V-GEN-NOISE: the set a draw is from. -/
theorem test_noise_set :
    admissibleNoise 0xBF800000 = true ∧ admissibleNoise 0x80000000 = true ∧
    admissibleNoise 0x3F7FFFFF = true ∧ admissibleNoise 0x3F800000 = false ∧
    admissibleNoise 0x7FC00000 = false := by decide +kernel

/-- V-TICK row 5: the inactive slot is not drawn for, the active one is in the set. -/
theorem test_noise_inactive_kept :
    ((goesTo (exec .noise quarter)).map fun t => ((t.slot 1).out, (t.slot 0).phase)) = some (0, 0) := by
  decide +kernel

/-- V-WRAP: `TWO_PI`, its neighbours, and a sum of many cycles. -/
theorem test_wrap :
    wrap 0x401921FB54442D17 = 0x401921FB54442D17 ∧ wrap 0x401921FB54442D18 = 0 ∧
    wrap 0x401921FB54442D19 = 0x3CD0000000000000 ∧ wrap 0x40F33DF5BDD21929 = 0x4015764ECDECD518 := by
  decide +kernel

/-- V-INC: the smallest positive increment. -/
theorem test_incr_smallest :
    incr (etHzDefault 0) 0x4130000000000000 = 0x3F09AF5E1D195EEB := by decide +kernel

/-! ### Steps -/

theorem test_step_foreign_param :
    step (presented [.param 0x3 0x40000000] ready) = .next ready := rfl

theorem test_step_illegal :
    ((goesTo (step (presented [.command 0x40000301 0] quarter))).map
      fun t => (t.status, t.inputs, t.faults.illegal)) = some (0x10101, [], true) := by decide +kernel

/-- The host's way in: from reset, the next step runs the presented instruction. -/
theorem test_fetch_word :
    ((goesTo (step (State.reset.withFetchWord 32 0x30000745))).map fun t => (t.slot 7).note) = some 69 ∧
    ((goesTo (step (State.reset.withFetchWord 4 0))).map fun t => t.status) = some 0 ∧
    ((goesTo (step (State.reset.withFetchWord 3 1))).map fun t => t.waveCur) = some .saw := by
  decide +kernel

/-! ### Witnesses: for each statement with hypotheses, a state and operands that meet them, clause by clause -/

theorem witness_DecodeOfEncode :
    Instr.wellFormed (.clrerr 0x7F) = true ∧ Instr.wellFormed (.noteon 7 255) = true ∧
    Instr.wellFormed .noise = true := by decide

theorem witness_EncodeOfDecodedCommand :
    decodeCommand 0x10000000 0x7FF8000000000000 = .ok (.prepare 0x7FF8000000000000) ∧
    decodeCommand 0x300007FF 5 = .ok (.noteon 7 255) := by decide

theorem witness_CommandDecodedByTableRow :
    decodeCommand 0x40000700 0 = .ok (.kill 7) ∧ tableRow (.kill 0) ∈ commandRows ∧
    (0x40000700 : BitVec 32).toNat &&& (tableRow (.kill 0)).mask = (tableRow (.kill 0)).pattern := by decide

/-- Each condition of rule R83 alone makes a word illegal, and the nearest legal words are not. -/
theorem witness_IllegalWord :
    IllegalWord 0x90000000 ∧ IllegalWord 0x50000800 ∧ IllegalWord 0x50000100 ∧ IllegalWord 0x40000301 ∧
    IllegalWord 0x70000080 ∧ ¬ IllegalWord 0x7000007F ∧ ¬ IllegalWord 0x300007FF ∧
    ¬ IllegalWord 0x40000700 := by
  refine ⟨?_, ?_, ?_, ?_, ?_, ?_, ?_, ?_⟩ <;> unfold IllegalWord <;> decide

theorem witness_IllegalWordOnlySetsErrIllegal :
    (presented [.command 0x70000080 3] quarter).inputs = .command 0x70000080 3 :: [] ∧
    IllegalWord 0x70000080 := ⟨rfl, witness_IllegalWord.2.2.2.2.1⟩

theorem witness_DataWordReadByPrepareOnly :
    opField 0x30000745 ≠ 0x1 ∧ opField 0x10000000 = 0x1 ∧
    decodeCommand 0x10000000 9 = .ok (.prepare 9) := by decide

theorem witness_StepRunsDecodedInstruction :
    (presented [.command 0x40000300 0] quarter).inputs = .command 0x40000300 0 :: [] ∧
    decodeCommand 0x40000300 0 = .ok (.kill 3) ∧
    (presented [.param 0 0x3F800000] quarter).inputs = .param 0 0x3F800000 :: [] ∧
    quarter.inputs = [] := ⟨rfl, by decide, rfl, rfl⟩

theorem witness_TickStepRunsSelectedWaveform :
    (presented [.command 0x50000000 1, .rst] noisy).inputs = .command 0x50000000 1 :: [.rst] ∧
    (presented [.command 0x50000000 1, .rst] noisy).prepared = true := ⟨rfl, rfl⟩

theorem witness_ForeignParameterIgnored :
    (presented [.param 0xF 1] quarter).inputs = .param 0xF 1 :: [] ∧ (0xF : BitVec 4) ≠ 0 ∧
    (1 : BitVec 4) ≠ 0 := ⟨rfl, by decide, by decide⟩

theorem witness_ResetInputEffect : (presented [.rst] quarter).inputs = .rst :: [] := rfl

/-- A step that sets a bit that was clear: the `TICK` of an unprepared block. -/
theorem witness_AtMostOneEventPerStep :
    ∃ t, step (presented [.command 0x50000000 0] State.reset) = .next t ∧
      State.reset.sticky.getLsbD 2 = false ∧ t.sticky.getLsbD 2 = true := ⟨_, rfl, by decide, by decide⟩

theorem witness_PrepareEffect :
    NanPattern64 0x7FF0000000000001 ∧ NanPattern64 0xFFFFFFFFFFFFFFFF ∧ ¬ NanPattern64 0x7FF0000000000000 ∧
    ¬ NanPattern64 0xFFF0000000000000 := by unfold NanPattern64; decide

/-- The rate just below, at and just above each limit. -/
theorem witness_ClampSrLimitsRate :
    (∃ v, value64 0x3FEFFFFFFFFFFFFF = some v ∧ v < 1) ∧
    (∃ v, value64 0x4130000000000001 = some v ∧ 1048576 < v) ∧
    value64 0x3FF0000000000000 = some 1 ∧ value64 0x4130000000000000 = some 1048576 :=
  ⟨⟨1 - 1 / 2 ^ 53, by decide +kernel⟩, ⟨1048576 + 1 / 2 ^ 32, by decide +kernel⟩, by decide +kernel,
    by decide +kernel⟩

/-- The bounds of each clause: the zeros, the least and the greatest value between the bounds, and 4. -/
theorem witness_SelectorNearestInteger :
    NanPattern32 0x7F800001 ∧ value32 0x80000000 = some 0 ∧ value32 0x40800000 = some 4 ∧
    (∃ w, value32 0x00000001 = some w ∧ 0 < w ∧ w < 4) ∧
    (∃ w, value32 0x407FFFFF = some w ∧ 0 < w ∧ w < 4) :=
  ⟨by unfold NanPattern32; decide, by decide +kernel, by decide +kernel,
    ⟨1 / 2 ^ 149, by decide +kernel⟩, ⟨4 - 1 / 2 ^ 22, by decide +kernel⟩⟩

/-- The first and the last reserved address, for `ReadMap` too. -/
theorem witness_ReadReservedAddress : 0x2D ≤ (0x2D : BitVec 8).toNat ∧ 0x2D ≤ (0xFF : BitVec 8).toNat := by
  decide

theorem witness_ReadTwiceSameValue :
    ∃ t u, exec (.read 0xFF) quarter = .next t ∧ exec (.read 0xFF) t = .next u := ⟨_, _, rfl, rfl⟩

theorem witness_ClrerrEffect :
    (0x7F : BitVec 8).getLsbD 7 = false ∧ (0x80 : BitVec 8).getLsbD 7 = true := by decide

theorem witness_NoteonEffect :
    quarter.prepared = true ∧ State.reset.prepared = false ∧ (7 : SlotIx) ≠ 0 ∧
    ¬ 127 < (127 : BitVec 8).toNat ∧ 127 < (128 : BitVec 8).toNat := by decide

theorem witness_KillEffect : (6 : SlotIx) ≠ 7 := by decide

theorem witness_TickEffect :
    State.reset.prepared = false ∧ noisy.prepared = true ∧ (noisy.slot 0).active = true ∧
    (noisy.slot 7).active = false := by decide +kernel

/-- Two states that differ in another slot only. -/
theorem witness_TickLanesIndependent :
    noisy.prepared = true ∧ (noisy.noteOn hardware 1 60).prepared = true ∧
    noisy.waveCur = (noisy.noteOn hardware 1 60).waveCur ∧
    noisy.noiseCtr = (noisy.noteOn hardware 1 60).noiseCtr ∧
    noisy.slot 0 = (noisy.noteOn hardware 1 60).slot 0 ∧
    noisy.slot 1 ≠ (noisy.noteOn hardware 1 60).slot 1 ∧
    (∃ t, exec .tick noisy = .next t) ∧ ∃ t, exec .tick (noisy.noteOn hardware 1 60) = .next t :=
  ⟨rfl, rfl, rfl, rfl, by decide +kernel, by decide +kernel, ⟨_, rfl⟩, ⟨_, rfl⟩⟩

/-- The invariants of rule R38 in a prepared state with an active slot. -/
theorem witness_Inv : quarter.Inv hardware where
  slots v :=
    { phase := by revert v; decide +kernel
      freq := by revert v; decide +kernel
      inc := by revert v; decide +kernel
      incNonNegative := by revert v; decide +kernel
      out := by revert v; decide +kernel
      active := by revert v; decide +kernel }
  rate := by decide +kernel

theorem witness_FirstSampleAfterNoteon :
    quarter.Inv hardware ∧ quarter.prepared = true ∧
    ∃ t u, exec (.noteon 0 127) quarter = .next t ∧ exec .tick t = .next u :=
  ⟨witness_Inv, rfl, _, _, rfl, rfl⟩

theorem witness_waveform_operations :
    (quarter.slot 0).active = true ∧ (quarter.slot 7).active = false := by decide +kernel

theorem zero_inUnit64 : inUnit64 0 = true := by decide +kernel

/-- A sine with property S1, the greatest phase in range, and both ends of the noise set. -/
theorem witness_GeneratorInUnitRange :
    (∀ y, phaseInRange y = true → inUnit64 ((fun _ => 0 : B64 → B64) y) = true) ∧
    phaseInRange 0 = true ∧ phaseInRange 0x401921FB54442D17 = true ∧
    value32 0xBF800000 = some (-1) ∧ (∃ x, value32 0x3F7FFFFF = some x ∧ -1 ≤ x ∧ x < 1) :=
  ⟨fun _ _ => zero_inUnit64, by decide +kernel, by decide +kernel, by decide +kernel,
    ⟨1 - 1 / 2 ^ 24, by decide +kernel⟩⟩

theorem witness_NanPatterns : NanPattern64 0xFFF0000000000001 ∧ NanPattern32 0xFFFFFFFF := by
  unfold NanPattern64 NanPattern32; decide

/-- Finite operands with finite results: 1 and 2^-53. -/
theorem witness_OperationsRoundToNearest :
    value64 0x3FF0000000000000 = some 1 ∧ value64 0x3CA0000000000000 = some (1 / 2 ^ 53) ∧
    value64 (add64 0x3FF0000000000000 0x3CA0000000000000) = some 1 ∧
    value64 (sub64 0x3FF0000000000000 0x3CA0000000000000) = some (1 - 1 / 2 ^ 53) ∧
    value64 (mul64 0x3FF0000000000000 0x3CA0000000000000) = some (1 / 2 ^ 53) ∧
    value64 (div64 0x3FF0000000000000 0x3CA0000000000000) = some (2 ^ 53) ∧ (1 / 2 ^ 53 : ℚ) ≠ 0 ∧
    value32 (rne32 0x3CA0000000000000) = some (1 / 2 ^ 53) := by decide +kernel

/-- Ties: 1 + 2^-53 between 1 and its successor; (1 + 2^-52) × 1.5; and 1 + 2^-24 in binary32. -/
theorem witness_OperationsBreakTiesToEven :
    (value64 0x3FF0000000000001 = some (1 + 1 / 2 ^ 52) ∧
      |(1 : ℚ) - (1 + 1 / 2 ^ 53)| = |(1 + 1 / 2 ^ 52) - (1 + 1 / 2 ^ 53)|) ∧
    (value64 (mul64 0x3FF0000000000001 0x3FF8000000000000) = some (3 / 2 + 2 / 2 ^ 52) ∧
      value64 0x3FF8000000000001 = some (3 / 2 + 1 / 2 ^ 52) ∧
      |(3 / 2 + 2 / 2 ^ 52 : ℚ) - (1 + 1 / 2 ^ 52) * (3 / 2)| =
        |(3 / 2 + 1 / 2 ^ 52) - (1 + 1 / 2 ^ 52) * (3 / 2)|) ∧
    (value64 0x3FF0000010000000 = some (1 + 1 / 2 ^ 24) ∧ value32 (rne32 0x3FF0000010000000) = some 1 ∧
      value32 0x3F800001 = some (1 + 1 / 2 ^ 23) ∧
      |(1 : ℚ) - (1 + 1 / 2 ^ 24)| = |(1 + 1 / 2 ^ 23) - (1 + 1 / 2 ^ 24)|) := by decide +kernel

/-- Sums just below and at `TWO_PI`, and just below twice it. -/
theorem witness_WrapIsExactRemainder :
    (∃ v, value64 0x401921FB54442D17 = some v ∧ 0 ≤ v ∧ v < twoPiValue) ∧
    (0x401921FB54442D17 : B64).msb = false ∧ value64 0x401921FB54442D18 = some twoPiValue ∧
    value64 0 = some 0 ∧
    (∃ v, value64 0x402921FB54442D17 = some v ∧ twoPiValue ≤ v ∧ v < 2 * twoPiValue) :=
  ⟨⟨twoPiValue - 1 / 2 ^ 50, by decide +kernel⟩, by decide, by decide +kernel, by decide +kernel,
    ⟨2 * twoPiValue - 1 / 2 ^ 49, by decide +kernel⟩⟩

theorem witness_IncrementBounded :
    rateInRange 0x3FF0000000000000 = true ∧ rateInRange 0x4130000000000000 = true ∧
    (0x40C87FED4E47ADFF : B64) = etHzDefault 127 := by decide +kernel

theorem witness_ActiveIncrementPositive :
    quarter.Inv hardware ∧ quarter.prepared = true ∧ (quarter.slot 0).active = true :=
  ⟨witness_Inv, rfl, by decide +kernel⟩

theorem witness_NoteTableNearest : (115 : Note).toNat + 12 < 128 := by decide

/-- The greatest phase in range is a finite argument, and its sine is decided. -/
theorem witness_SineNearest :
    value64 0x401921FB54442D17 = some (twoPiValue - 1 / 2 ^ 50) ∧
    sinDecided (twoPiValue - 1 / 2 ^ 50) = some 0xBCD469898CC51702 ∧ sinDecided 0 = some 0 := by
  decide +kernel

theorem witness_StepKeepsInvariants :
    (presented [.command 0x50000000 0] quarter).Inv hardware ∧
    ∃ t, step (presented [.command 0x50000000 0] quarter) = .next t :=
  ⟨⟨fun v => ⟨(witness_Inv.slots v).phase, (witness_Inv.slots v).freq, (witness_Inv.slots v).inc,
    (witness_Inv.slots v).incNonNegative, (witness_Inv.slots v).out, (witness_Inv.slots v).active⟩,
    witness_Inv.rate⟩, _, rfl⟩

theorem a440_usable : value64 0x407B800000000000 = some 440 ∧ (0 : ℚ) < 440 ∧ (440 : ℚ) ≤ 16384 := by
  decide +kernel

/-- Usable parameters other than the hardware's, and a state that meets the invariants for them. -/
theorem witness_UsableParametersKeepInvariants :
    Usable ⟨fun _ => 0x407B800000000000, fun _ => 0⟩ ∧
    State.Inv ⟨fun _ => 0x407B800000000000, fun _ => 0⟩ quarter ∧
    exec (.prepare rate44100) quarter = .next (quarter.setRate rate44100) :=
  ⟨⟨fun _ => ⟨440, a440_usable⟩, fun _ _ => zero_inUnit64⟩,
    { slots := fun v =>
        { phase := by revert v; decide +kernel
          freq := by revert v; decide +kernel
          inc := by revert v; decide +kernel
          incNonNegative := by revert v; decide +kernel
          out := by revert v; decide +kernel
          active := by revert v; decide +kernel }
      rate := by decide +kernel },
    by rw [exec_prepare_rate _ (by decide +kernel)]
       have h : clampSr rate44100 = (rate44100, false) := by decide +kernel
       rw [h]; rfl⟩

/-- A recorded fault and a step that clears every sticky bit. -/
theorem witness_FaultRecordNeverCleared :
    ∃ t, step (presented [.rst] { quarter with faults := ⟨true, true, true, true⟩ }) = .next t ∧
      (⟨true, true, true, true⟩ : FaultRecord).has .badAddr = true := ⟨_, rfl, rfl⟩

theorem witness_ModelFieldsFrame :
    ∃ t, exec .noise quarter = .next t ∧ t.noiseCtr ≠ quarter.noiseCtr := ⟨_, rfl, by decide⟩

theorem witness_StickyClearedByClrerrOrReset :
    ∃ t, exec (.clrerr 0x40) { State.reset with sticky := 0x7F } = .next t ∧
      (0x7F : BitVec 7).getLsbD 6 = true ∧ t.sticky.getLsbD 6 = false :=
  ⟨_, exec_clrerr_legal _ (by decide), by decide, by decide⟩

theorem witness_StatusBitsAlterNothing :
    (.read 0x2A : Instr) ≠ .read 0x2B ∧ ∃ t, exec (.read 0x2A) quarter = .next t :=
  ⟨by decide, _, rfl⟩

theorem witness_StatusLayout : (9 ≤ 9 ∧ 9 ≤ 15) ∧ (9 ≤ 15 ∧ 15 ≤ 15) ∧ 6 < 7 ∧ 23 ≤ 63 := by decide

theorem witness_ActiveChangedByNoteonKillOrReset :
    (∃ t, exec (.noteon 7 69) quarter = .next t ∧ (quarter.slot 7).active = false ∧
      (t.slot 7).active = true) ∧
    (∃ t, exec (.kill 0) quarter = .next t ∧ (quarter.slot 0).active = true ∧ (t.slot 0).active = false) ∧
    (∃ t, exec .swreset quarter = .next t ∧ (t.slot 0).active = false) :=
  ⟨⟨_, rfl, by decide +kernel⟩, ⟨_, rfl, by decide +kernel⟩, ⟨_, rfl, by decide +kernel⟩⟩

theorem witness_SlotRegisterWriters :
    (∃ t, exec (.noteon 0 60) quarter = .next t ∧ (t.slot 0).freq ≠ (quarter.slot 0).freq ∧
      (t.slot 0).note ≠ (quarter.slot 0).note) ∧
    (∃ t, exec .tick quarter = .next t ∧ (t.slot 0).phase ≠ (quarter.slot 0).phase ∧
      (t.slot 0).out ≠ (quarter.slot 0).out) ∧
    (∃ t, exec (.prepare rate44100) quarter = .next t ∧ (t.slot 0).inc ≠ (quarter.slot 0).inc) :=
  ⟨⟨_, rfl, by decide +kernel⟩, ⟨_, rfl, by decide +kernel⟩,
    ⟨_, exec_prepare_rate _ (by decide +kernel), by decide +kernel⟩⟩

theorem witness_RateWrittenByPrepareOrReset :
    (∃ t, exec (.prepare rate44100) quarter = .next t ∧ t.sr ≠ quarter.sr) ∧
    (∃ t, exec .swreset quarter = .next t ∧ quarter.prepared = true ∧ t.prepared = false) :=
  ⟨⟨_, exec_prepare_rate _ (by decide +kernel), by decide +kernel⟩, ⟨_, rfl, by decide +kernel⟩⟩

theorem witness_SelectorWrittenByLatchOrReset :
    (∃ t, exec .latch { quarter with wavePend := 0x40000000 } = .next t ∧ t.waveCur ≠ quarter.waveCur) ∧
    (∃ t, exec (.setwave 0x40000000) quarter = .next t ∧ t.wavePend ≠ quarter.wavePend) :=
  ⟨⟨_, rfl, by decide +kernel⟩, ⟨_, rfl, by decide +kernel⟩⟩

theorem witness_OutputLatchWriters :
    (∃ t, exec (.read 0x2C) quarter = .next t ∧ t.rdata ≠ quarter.rdata) ∧
    (∃ t, exec .tick quarter = .next t ∧ t.outValid ≠ quarter.outValid) :=
  ⟨⟨_, rfl, by decide +kernel⟩, ⟨_, rfl, by decide +kernel⟩⟩

theorem witness_ParameterWriteCommutes :
    (Instr.tick ≠ .latch ∧ Instr.tick ≠ .swreset ∧ Instr.tick ≠ .read 0x29 ∧
      ∀ w', Instr.tick ≠ .setwave w') ∧ ∃ t, exec .tick quarter = .next t :=
  ⟨⟨by decide, by decide, by decide, nofun⟩, _, rfl⟩

end Sys2Proof.Tests
end

section
/-! SUPPORT. The rounding of magnitudes at ties, and under a sign (rule R12). -/

namespace Sys2Proof.Machine

/-! ### Ties of magnitudes -/

/-- A quotient halfway between two integers is rounded to the even one. -/
theorem rneDiv_even_of_half {a b M : Nat} (hb : 0 < b) (h : 2 * a = (2 * M + 1) * b) :
    2 ∣ rneDiv a b := by
  have hmod : 2 * (a % b) = b := by
    rw [← Nat.mul_mod_mul_left, h, show (2 * M + 1) * b = b + 2 * b * M by ring,
      Nat.add_mul_mod_self_left, Nat.mod_eq_of_lt (by omega)]
  unfold rneDiv
  split_ifs <;> omega

theorem two_zpow_mul_pow_toNat (q : Int) : (2 : ℚ) ^ q * 2 ^ (-q).toNat = 2 ^ q.toNat := by
  rw [← zpow_natCast, ← zpow_natCast, ← zpow_add₀ two_ne_zero]
  congr 1
  omega

theorem cast_natAbs_num {r : ℚ} (hr : 0 ≤ r) : (r.num.natAbs : ℚ) = r * r.den := by
  rw [Nat.cast_natAbs, abs_of_nonneg (Rat.num_nonneg.mpr hr), Rat.mul_den_eq_num]

/-- A magnitude halfway between two counts of the step `2^q` gives the rounding a quotient halfway
between two integers. -/
theorem scaled_num_of_half_steps {r : ℚ} {M : Nat} {q : Int} (hr0 : 0 ≤ r) (hr : r = (M + 1 / 2) * 2 ^ q) :
    2 * (r.num.natAbs * 2 ^ (-q).toNat) = (2 * M + 1) * (r.den * 2 ^ q.toNat) := by
  have : (2 : ℚ) * (r.num.natAbs * 2 ^ (-q).toNat) = (2 * M + 1) * (r.den * 2 ^ q.toNat) := by
    rw [cast_natAbs_num hr0, ← two_zpow_mul_pow_toNat q]
    linear_combination (2 * (r.den : ℚ) * 2 ^ (-q).toNat) * hr
  exact_mod_cast this

/-- The rounding counts a magnitude in the steps of the range it lies in. -/
theorem Fmt.roundMag_of_range (F : Fmt) {r : ℚ} {E : Nat} (hr : 0 < r)
    (hlo : E = 0 ∨ (2 : ℚ) ^ (F.qMin + (E : Int) + F.fracBits) ≤ r)
    (hhi : r < (2 : ℚ) ^ (F.qMin + (E : Int) + F.fracBits + 1)) :
    F.roundMag r = min (E * 2 ^ F.fracBits + rneDiv (r.num.natAbs * 2 ^ (-(F.qMin + (E : Int))).toNat)
      (r.den * 2 ^ (F.qMin + (E : Int)).toNat)) F.infPat := by
  obtain ⟨hkl, hku⟩ := ilog2_spec (Int.natAbs_pos.mpr (Rat.num_ne_zero.mpr hr.ne')) r.den_pos
  rw [cast_natAbs_num hr.le, mul_div_cancel_right₀ _ (by exact_mod_cast r.den_ne_zero)] at hkl hku
  have hk : ilog2 r.num.natAbs r.den < F.qMin + E + F.fracBits + 1 :=
    (zpow_lt_zpow_iff_right₀ one_lt_two).mp (hkl.trans_lt hhi)
  have hstep : max (ilog2 r.num.natAbs r.den - F.fracBits) F.qMin = F.qMin + E := by
    rcases hlo with rfl | hlo
    · omega
    · have := (zpow_lt_zpow_iff_right₀ (one_lt_two (α := ℚ))).mp (hlo.trans_lt hku)
      omega
  simp only [Fmt.roundMag, not_le.mpr hr, if_false, hstep, add_sub_cancel_left, Int.toNat_natCast]

/-- The midpoint of two neighbouring values of the format rounds to an even pattern. -/
theorem Fmt.roundMag_even_of_midpoint (F : Fmt) (hf : F.fracBits ≠ 0) {r : ℚ} {lo : Nat}
    (h : 2 * r = F.magnitude lo + F.magnitude (lo + 1)) : 2 ∣ F.roundMag r := by
  obtain ⟨E, M, rfl, hM, hE, hv⟩ := F.magnitude_parts lo
  rw [add_assoc, F.magnitude_of_parts E (M + 1) hM (by omega), hv] at h
  push_cast at h
  set q : Int := F.qMin + (E : Int)
  have hq : (0 : ℚ) < 2 ^ q := by positivity
  have hr : r = (M + 1 / 2) * 2 ^ q := by linarith
  have hr0 : 0 < r := by rw [hr]; positivity
  have hlo : E = 0 ∨ (2 : ℚ) ^ (q + F.fracBits) ≤ r := by
    refine hE.imp_right fun hE => ?_
    have : (2 : ℚ) ^ F.fracBits ≤ M := by exact_mod_cast hE
    rw [hr, zpow_add₀ two_ne_zero q, zpow_natCast, mul_comm]
    gcongr
    linarith
  have hhi : r < (2 : ℚ) ^ (q + F.fracBits + 1) := by
    have : (M : ℚ) + 1 ≤ 2 ^ (F.fracBits + 1) := by exact_mod_cast hM
    rw [hr, add_assoc, zpow_add₀ two_ne_zero q, ← Nat.cast_succ, zpow_natCast, mul_comm]
    gcongr
    exact lt_of_lt_of_le (by linarith) this
  have hpow : 2 ∣ 2 ^ F.fracBits := dvd_pow_self 2 hf
  have hcount := rneDiv_even_of_half (by positivity) (scaled_num_of_half_steps hr0.le hr)
  rw [F.roundMag_of_range hr0 hlo hhi]
  rcases min_choice (E * 2 ^ F.fracBits + rneDiv (r.num.natAbs * 2 ^ (-q).toNat) (r.den * 2 ^ q.toNat))
    F.infPat with hmin | hmin <;> rw [hmin]
  · exact dvd_add (dvd_mul_of_dvd_right hpow _) hcount
  · exact dvd_mul_of_dvd_right hpow _

/-- Two values as near to a rational as any value of the format, one below and one above it, are
neighbours. -/
theorem Fmt.succ_of_nearest_both_sides (F : Fmt) {r : ℚ} {lo hi : Nat} (hlt : lo < hi)
    (hhi : hi < F.infPat) (h : 2 * r = F.magnitude lo + F.magnitude hi)
    (hnear : ∀ k, |F.magnitude hi - r| ≤ |F.magnitude k - r|) : hi = lo + 1 := by
  by_contra hne
  have h1 : F.magnitude lo < F.magnitude (lo + 1) :=
    (F.magnitude_lt_iff (by omega) (by omega)).mpr (by omega)
  have h2 : F.magnitude (lo + 1) < F.magnitude hi :=
    (F.magnitude_lt_iff (by omega) (by omega)).mpr (by omega)
  refine absurd (hnear (lo + 1)) (not_le.mpr ?_)
  rw [abs_of_pos (a := F.magnitude hi - r) (by linarith), abs_lt]
  constructor <;> linarith

/-- Where another value of the format is equally near, the rounding gives an even pattern. -/
theorem Fmt.roundMag_even_of_tie (F : Fmt) (hf : F.fracBits ≠ 0) {r : ℚ} (hr : 0 ≤ r)
    (hfin : F.roundMag r < F.infPat) {p : Nat} (hp : p < F.infPat)
    (hne : F.magnitude p ≠ F.magnitude (F.roundMag r))
    (h : |F.magnitude (F.roundMag r) - r| = |F.magnitude p - r|) : 2 ∣ F.roundMag r := by
  have hnear := F.roundMag_nearest hr hfin
  have hmid : 2 * r = F.magnitude (F.roundMag r) + F.magnitude p := by
    rcases abs_eq_abs.mp h with h | h
    · exact absurd (by linarith) hne
    · linarith
  rcases lt_trichotomy p (F.roundMag r) with hlt | heq | hlt
  · have hs := F.succ_of_nearest_both_sides hlt hfin (by rw [hmid, add_comm]) hnear
    exact F.roundMag_even_of_midpoint hf (lo := p) (by rw [← hs, hmid, add_comm])
  · exact absurd (congrArg _ heq) hne
  · have hs := F.succ_of_nearest_both_sides hlt hp hmid (by rwa [← h])
    exact F.roundMag_even_of_midpoint hf (by rw [← hs, hmid])

/-! ### Signed values -/

theorem abs_signed (s : Bool) {m : ℚ} (hm : 0 ≤ m) : |signed s m| = m := by
  cases s <;> simp [signed, hm]

theorem signed_sub_signed_abs (s : Bool) (x y : ℚ) : |signed s x - signed s y| = |x - y| := by
  cases s
  · rfl
  · simp only [signed, if_true]; rw [neg_sub_neg, abs_sub_comm]

/-- Leaving out the signs brings two values no farther apart. -/
theorem abs_sub_le_signed_sub (s t : Bool) {x y : ℚ} (hx : 0 ≤ x) (hy : 0 ≤ y) :
    |x - y| ≤ |signed s x - signed t y| := by
  simpa only [abs_signed _ hx, abs_signed _ hy] using abs_abs_sub_abs_le (signed s x) (signed t y)

/-- If the signs bring two values no farther apart, the first has the sign of the second, or the second
is zero. -/
theorem signed_eq_or_eq_zero {s t : Bool} {x y : ℚ} (hx : 0 ≤ x) (hy : 0 ≤ y)
    (h : |x - y| = |signed t x - signed s y|) : signed t x = signed s x ∨ y = 0 := by
  rcases Bool.eq_or_eq_not t s with rfl | rfl
  · exact .inl rfl
  have hsum : |signed (!s) x - signed s y| = x + y := by
    rw [← abs_signed s (add_nonneg hx hy), ← abs_neg]
    cases s <;> simp [signed, add_comm]
  rw [hsum] at h
  rcases abs_choice (x - y) with habs | habs <;> rw [habs] at h
  · exact .inr (by linarith)
  · have hx0 : x = 0 := by linarith
    exact .inl (by simp [hx0, signed])

theorem signed_mul (s t : Bool) (x y : ℚ) : signed s x * signed t y = signed (s ^^ t) (x * y) := by
  cases s <;> cases t <;> simp [signed]

theorem signed_div (s t : Bool) (x y : ℚ) : signed s x / signed t y = signed (s ^^ t) (x / y) := by
  cases s <;> cases t <;> simp [signed, neg_div, div_neg]

theorem signed_not (s : Bool) (x : ℚ) : signed (!s) x = -signed s x := by
  cases s <;> simp [signed]

/-- The rounding of a magnitude under its sign is nearest among the values of either sign. -/
theorem Fmt.signed_roundMag_nearest (F : Fmt) (s t : Bool) {m : ℚ} (hm : 0 ≤ m)
    (hfin : F.roundMag m < F.infPat) (p : Nat) :
    |signed s (F.magnitude (F.roundMag m)) - signed s m| ≤ |signed t (F.magnitude p) - signed s m| := by
  rw [signed_sub_signed_abs]
  exact (F.roundMag_nearest hm hfin p).trans (abs_sub_le_signed_sub _ _ (F.magnitude_nonneg p) hm)

/-- Where another value of either sign is equally near, the rounding of a magnitude under its sign
gives an even pattern. -/
theorem Fmt.signed_roundMag_even_of_tie (F : Fmt) (hf : F.fracBits ≠ 0) {s t : Bool} {m : ℚ}
    (hm : 0 ≤ m) (hfin : F.roundMag m < F.infPat) {p : Nat} (hp : p < F.infPat)
    (hne : signed t (F.magnitude p) ≠ signed s (F.magnitude (F.roundMag m)))
    (h : |signed s (F.magnitude (F.roundMag m)) - signed s m| = |signed t (F.magnitude p) - signed s m|) :
    2 ∣ F.roundMag m := by
  have hp0 := F.magnitude_nonneg p
  rw [signed_sub_signed_abs] at h
  have htie : |F.magnitude (F.roundMag m) - m| = |F.magnitude p - m| :=
    le_antisymm (F.roundMag_nearest hm hfin p) (h ▸ abs_sub_le_signed_sub t s hp0 hm)
  by_cases heq : F.magnitude p = F.magnitude (F.roundMag m)
  · rw [heq] at hne h
    rcases signed_eq_or_eq_zero (F.magnitude_nonneg _) hm h with heq | rfl
    · exact absurd heq hne
    · simp
  · exact F.roundMag_even_of_tie hf hm hfin hp heq htie

end Sys2Proof.Machine
end

section
/-! SUPPORT. The exact result that each operation rounds, what a finite rounding is, and the statements
O39 to O41 (rules R4, R12, R53). -/

namespace Sys2Proof.Machine

/-! ### The exact result an operation rounds -/

/-- A finite binary64 value is a sign and a magnitude. -/
theorem unpack64_of_value64 {a : B64} {x : ℚ} (h : value64 a = some x) :
    ∃ s m, unpack64 a = .fin s m ∧ x = signed s m ∧ 0 ≤ m := by
  obtain ⟨s, p, hp, rfl, rfl⟩ := value64_eq_some h
  exact ⟨s, _, unpack64_pack64_fin s hp, rfl, binary64.magnitude_nonneg p⟩

theorem value32_eq_some {x : B32} {v : ℚ} (h : value32 x = some v) :
    ∃ neg, ∃ p < binary32.infPat, x = pack32 neg p ∧ v = signed neg (binary32.magnitude p) := by
  unfold value32 at h
  cases hu : unpack32 x with
  | nan => rw [hu] at h; cases h
  | inf n => rw [hu] at h; cases h
  | fin neg m =>
    obtain ⟨p, hp, hx, hm⟩ := unpack32_eq_fin hu
    rw [hu] at h
    cases h
    exact ⟨neg, p, hp, hx, by rw [hm]⟩

/-- `d` is the rounding of the exact value `v` to binary64: that of its magnitude under its sign. -/
def Rounds64 (d : B64) (v : ℚ) : Prop :=
  ∃ s m, 0 ≤ m ∧ v = signed s m ∧ d = pack64 s (binary64.roundMag m)

/-- `d` is the rounding of the exact value `v` to binary32. -/
def Rounds32 (d : B32) (v : ℚ) : Prop :=
  ∃ s m, 0 ≤ m ∧ v = signed s m ∧ d = pack32 s (binary32.roundMag m)

theorem rounds64_round64 (v : ℚ) : Rounds64 (round64 v) v := by
  rcases lt_or_ge v 0 with h | h
  · exact ⟨true, -v, by linarith, by simp [signed], by rw [round64, if_pos h]⟩
  · exact ⟨false, v, h, rfl, by rw [round64, if_neg (not_lt.mpr h)]⟩

theorem rounds64_pack64_zero (s : Bool) : Rounds64 (pack64 s 0) 0 :=
  ⟨s, 0, le_rfl, by simp [signed], by rw [Fmt.roundMag_zero]⟩

section
variable {a b : B64} {x y : ℚ}

theorem add64_rounds (ha : value64 a = some x) (hb : value64 b = some y) :
    Rounds64 (add64 a b) (x + y) := by
  obtain ⟨s, m, hua, rfl, -⟩ := unpack64_of_value64 ha
  obtain ⟨t, n, hub, rfl, -⟩ := unpack64_of_value64 hb
  rw [add64_fin hua hub]
  split_ifs with h
  · rw [h]; exact rounds64_pack64_zero _
  · exact rounds64_round64 _

theorem mul64_rounds (ha : value64 a = some x) (hb : value64 b = some y) :
    Rounds64 (mul64 a b) (x * y) := by
  obtain ⟨s, m, hua, rfl, hm⟩ := unpack64_of_value64 ha
  obtain ⟨t, n, hub, rfl, hn⟩ := unpack64_of_value64 hb
  exact ⟨s ^^ t, m * n, mul_nonneg hm hn, signed_mul s t m n, mul64_fin hua hub⟩

theorem div64_rounds (ha : value64 a = some x) (hb : value64 b = some y) (hy : y ≠ 0) :
    Rounds64 (div64 a b) (x / y) := by
  obtain ⟨s, m, hua, rfl, hm⟩ := unpack64_of_value64 ha
  obtain ⟨t, n, hub, rfl, hn⟩ := unpack64_of_value64 hb
  have hn0 : n ≠ 0 := by rintro rfl; exact hy (by simp [signed])
  exact ⟨s ^^ t, m / n, div_nonneg hm hn, signed_div s t m n, div64_fin hua hub hn0⟩

/-- `neg64` inverts the sign and keeps the rest of the pattern. -/
theorem unpack64_neg64 (b : B64) : unpack64 (neg64 b) = binary64.unpack (!b.msb) (b.toNat % 2 ^ 63) := by
  have hmsb : (neg64 b).msb = !b.msb := by
    rw [neg64, BitVec.msb_xor, show (0x8000000000000000#64).msb = true by decide, Bool.xor_true]
  have hrest : (neg64 b).toNat % 2 ^ 63 = b.toNat % 2 ^ 63 := by
    rw [neg64, BitVec.toNat_xor, Nat.xor_mod_two_pow]
    exact Nat.xor_zero _
  rw [unpack64, hmsb, hrest]

theorem Fmt.value_unpack_not (F : Fmt) (s : Bool) (p : Nat) :
    (F.unpack (!s) p).value = (F.unpack s p).value.map (- ·) := by
  unfold Fmt.unpack
  split_ifs <;> simp [Datum.value, signed_not]

theorem value64_neg64 (hb : value64 b = some y) : value64 (neg64 b) = some (-y) := by
  rw [value64, unpack64_neg64, Fmt.value_unpack_not, ← unpack64, ← value64, hb, Option.map_some]

theorem sub64_rounds (ha : value64 a = some x) (hb : value64 b = some y) :
    Rounds64 (sub64 a b) (x - y) := by
  rw [sub_eq_add_neg]
  exact add64_rounds ha (value64_neg64 hb)

theorem rne32_rounds (ha : value64 a = some x) : Rounds32 (rne32 a) x := by
  obtain ⟨s, m, hua, rfl, hm⟩ := unpack64_of_value64 ha
  exact ⟨s, m, hm, rfl, by simp only [rne32, hua]⟩

end

/-! ### What a rounding is -/

theorem lt_infPat_of_value64_pack64 {s : Bool} {p : Nat} {r : ℚ} (hp : p ≤ binary64.infPat)
    (h : value64 (pack64 s p) = some r) : p < binary64.infPat := by
  refine lt_of_le_of_ne hp ?_
  rintro rfl
  rw [value64, unpack64_pack64 _ (by rw [binary64_infPat]; norm_num)] at h
  simp [Fmt.unpack, Datum.value] at h

theorem lt_infPat_of_value32_pack32 {s : Bool} {p : Nat} {r : ℚ} (hp : p ≤ binary32.infPat)
    (h : value32 (pack32 s p) = some r) : p < binary32.infPat := by
  refine lt_of_le_of_ne hp ?_
  rintro rfl
  rw [value32, unpack32_pack32 _ (by rw [binary32_infPat]; norm_num)] at h
  simp [Fmt.unpack, Datum.value] at h

theorem pack64_bit_zero (s : Bool) {p : Nat} (hp : p < 2 ^ 63) (h : 2 ∣ p) :
    (pack64 s p).getLsbD 0 = false := by
  rw [BitVec.getLsbD, pack64_toNat s hp, Nat.testBit_zero, decide_eq_false_iff_not]
  split_ifs <;> omega

theorem pack32_bit_zero (s : Bool) {p : Nat} (hp : p < 2 ^ 31) (h : 2 ∣ p) :
    (pack32 s p).getLsbD 0 = false := by
  rw [BitVec.getLsbD, pack32_toNat s hp, Nat.testBit_zero, decide_eq_false_iff_not]
  split_ifs <;> omega

/-- A finite rounding is a finite rounded magnitude under the exact value's sign. -/
theorem Rounds64.finite {d : B64} {v r : ℚ} (h : Rounds64 d v) (hr : value64 d = some r) :
    ∃ s m, 0 ≤ m ∧ v = signed s m ∧ d = pack64 s (binary64.roundMag m) ∧
      binary64.roundMag m < binary64.infPat ∧ r = signed s (binary64.magnitude (binary64.roundMag m)) := by
  obtain ⟨s, m, hm, rfl, rfl⟩ := h
  have hfin := lt_infPat_of_value64_pack64 (binary64.roundMag_le_infPat m) hr
  rw [value64_pack64 s hfin] at hr
  cases hr
  exact ⟨s, m, hm, rfl, rfl, hfin, rfl⟩

theorem Rounds64.nearest {d z : B64} {v r w : ℚ} (h : Rounds64 d v) (hr : value64 d = some r)
    (hz : value64 z = some w) : |r - v| ≤ |w - v| := by
  obtain ⟨s, m, hm, rfl, -, hfin, rfl⟩ := h.finite hr
  obtain ⟨t, p, -, -, rfl⟩ := value64_eq_some hz
  exact binary64.signed_roundMag_nearest s t hm hfin p

theorem Rounds64.even_of_tie {d z : B64} {v r w : ℚ} (h : Rounds64 d v) (hr : value64 d = some r)
    (hz : value64 z = some w) (hne : w ≠ r) (htie : |r - v| = |w - v|) : d.getLsbD 0 = false := by
  obtain ⟨s, m, hm, rfl, rfl, hfin, rfl⟩ := h.finite hr
  obtain ⟨t, p, hp, -, rfl⟩ := value64_eq_some hz
  have heven := binary64.signed_roundMag_even_of_tie (by decide) hm hfin hp hne htie
  exact pack64_bit_zero s (by rw [binary64_infPat] at hfin; omega) heven

/-- A finite rounding is a finite rounded magnitude under the exact value's sign. -/
theorem Rounds32.finite {d : B32} {v r : ℚ} (h : Rounds32 d v) (hr : value32 d = some r) :
    ∃ s m, 0 ≤ m ∧ v = signed s m ∧ d = pack32 s (binary32.roundMag m) ∧
      binary32.roundMag m < binary32.infPat ∧ r = signed s (binary32.magnitude (binary32.roundMag m)) := by
  obtain ⟨s, m, hm, rfl, rfl⟩ := h
  have hfin := lt_infPat_of_value32_pack32 (binary32.roundMag_le_infPat m) hr
  rw [value32_pack32 s hfin] at hr
  cases hr
  exact ⟨s, m, hm, rfl, rfl, hfin, rfl⟩

theorem Rounds32.nearest {d z : B32} {v r w : ℚ} (h : Rounds32 d v) (hr : value32 d = some r)
    (hz : value32 z = some w) : |r - v| ≤ |w - v| := by
  obtain ⟨s, m, hm, rfl, -, hfin, rfl⟩ := h.finite hr
  obtain ⟨t, p, -, -, rfl⟩ := value32_eq_some hz
  exact binary32.signed_roundMag_nearest s t hm hfin p

theorem Rounds32.even_of_tie {d z : B32} {v r w : ℚ} (h : Rounds32 d v) (hr : value32 d = some r)
    (hz : value32 z = some w) (hne : w ≠ r) (htie : |r - v| = |w - v|) : d.getLsbD 0 = false := by
  obtain ⟨s, m, hm, rfl, rfl, hfin, rfl⟩ := h.finite hr
  obtain ⟨t, p, hp, -, rfl⟩ := value32_eq_some hz
  have heven := binary32.signed_roundMag_even_of_tie (by decide) hm hfin hp hne htie
  exact pack32_bit_zero s (by rw [binary32_infPat] at hfin; omega) heven

/-! ### NaN patterns and the statements -/

/-- A pattern is NaN exactly above infinity's. -/
theorem Fmt.unpack_eq_nan_iff (F : Fmt) (s : Bool) (p : Nat) : F.unpack s p = .nan ↔ F.infPat < p := by
  unfold Fmt.unpack
  split_ifs <;> simp <;> omega

theorem isNaN64_iff (x : B64) : isNaN64 x = true ↔ NanPattern64 x := by
  have hx : isNaN64 x = true ↔ 0x7FF0000000000000 < x.toNat % 2 ^ 63 := by
    rw [isNaN64, decide_eq_true_iff, unpack64, Fmt.unpack_eq_nan_iff, binary64_infPat]
  rw [hx, NanPattern64, ne_eq, ← BitVec.toNat_inj, ← BitVec.toNat_inj, BitVec.extractLsb'_toNat,
    BitVec.extractLsb'_toNat, Nat.shiftRight_eq_div_pow]
  simp only [Nat.shiftRight_zero, BitVec.toNat_ofNat]
  omega

theorem isNaN32_iff (x : B32) : isNaN32 x = true ↔ NanPattern32 x := by
  have hx : isNaN32 x = true ↔ 0x7F800000 < x.toNat % 2 ^ 31 := by
    rw [isNaN32, decide_eq_true_iff, unpack32, Fmt.unpack_eq_nan_iff, binary32_infPat]
  rw [hx, NanPattern32, ne_eq, ← BitVec.toNat_inj, ← BitVec.toNat_inj, BitVec.extractLsb'_toNat,
    BitVec.extractLsb'_toNat, Nat.shiftRight_eq_div_pow]
  simp only [Nat.shiftRight_zero, BitVec.toNat_ofNat]
  omega

/-- Settles O39: in each format the patterns above infinity's have the exponent all ones and a fraction
other than 0. -/
theorem nanPatterns : Obligations.NanPatterns :=
  ⟨isNaN64_iff, isNaN32_iff⟩

/-- Settles O40: each operation rounds the exact result, and a rounding is nearest. -/
theorem operationsRoundToNearest : Obligations.OperationsRoundToNearest := by
  intro a b x y ha hb
  exact ⟨fun r hr z w hz => (add64_rounds ha hb).nearest hr hz,
    fun r hr z w hz => (sub64_rounds ha hb).nearest hr hz,
    fun r hr z w hz => (mul64_rounds ha hb).nearest hr hz,
    fun hy r hr z w hz => (div64_rounds ha hb hy).nearest hr hz,
    fun r hr z w hz => (rne32_rounds ha).nearest hr hz⟩

/-- Settles O41: two values equally near are neighbours, and the rounding of their midpoint is even. -/
theorem operationsBreakTiesToEven : Obligations.OperationsBreakTiesToEven := by
  intro a b x y ha hb
  exact ⟨fun r hr z w hz => (add64_rounds ha hb).even_of_tie hr hz,
    fun r hr z w hz => (mul64_rounds ha hb).even_of_tie hr hz,
    fun r hr z w hz => (rne32_rounds ha).even_of_tie hr hz⟩

end Sys2Proof.Machine
end

section
/-! SUPPORT. What an instruction can do to a slot's active bit, and the statement O55 (rules R7, R24). -/

namespace Sys2Proof.Machine

theorem State.generate_active (s : State) (P : Config.Params) (w : Wave) (v : SlotIx) :
    ((s.generate P w).slot v).active = (s.slot v).active := by
  rw [State.generate_slot]; split <;> rfl

theorem exec_wave_active (w : Wave) {s t : State} (v : SlotIx) (h : exec w.instr s = .next t) :
    (t.slot v).active = (s.slot v).active := by
  cases (exec_wave w s).symm.trans h
  exact s.generate_active hardware w v

theorem State.tick_active (s : State) (P : Config.Params) (v : SlotIx) :
    ((s.tick P).slot v).active = (s.slot v).active := by
  cases h : s.prepared
  · rw [State.tick_unprepared s P h]; rfl
  · rw [State.tick_prepared s P h, State.generate_active, State.advance_slot, advanceLane_active]

/-- All that an instruction can do to a slot's active bit: keep it; set it, as `NOTEON` of the slot; or
clear it, as `KILL` of the slot or `SWRESET` (rules R24, R133, R134, R167). -/
theorem exec_active {i : Instr} {s t : State} (v : SlotIx) (h : exec i s = .next t) :
    (t.slot v).active = (s.slot v).active ∨
    ((∃ n, i = .noteon v n) ∧ (t.slot v).active = true) ∨
    ((i = .swreset ∨ i = .kill v) ∧ (t.slot v).active = false) := by
  cases i with
  | nop => cases h; exact .inl rfl
  | prepare d =>
    cases hd : isNaN64 d
    · cases (exec_prepare_rate s hd).symm.trans h; exact .inl (by simp)
    · cases (exec_prepare_nan s hd).symm.trans h; exact .inl (by simp)
  | latch => cases (exec_latch s).symm.trans h; exact .inl (by simp [State.slot])
  | noteon u n =>
    cases (exec_noteon u n s).symm.trans h
    by_cases hu : v = u
    · exact .inr (.inl ⟨⟨n, by rw [hu]⟩, by simp [hu]⟩)
    · exact .inl (by simp [hu])
  | kill u =>
    cases (exec_kill u s).symm.trans h
    by_cases hu : v = u
    · exact .inr (.inr ⟨.inr (by rw [hu]), by simp [hu]⟩)
    · exact .inl (by simp [hu])
  | tick => cases (exec_tick s).symm.trans h; exact .inl (s.tick_active hardware v)
  | read a =>
    cases ha : reservedAddr a
    · cases (exec_read_mapped s ha).symm.trans h; exact .inl rfl
    · cases (exec_read_reserved s ha).symm.trans h; exact .inl rfl
  | clrerr m =>
    cases hm : m.getLsbD 7
    · cases (exec_clrerr_legal s hm).symm.trans h; exact .inl (by simp)
    · cases (exec_clrerr_illegal s hm).symm.trans h; exact .inl (by simp)
  | swreset =>
    cases (exec_swreset s).symm.trans h
    exact .inr (.inr ⟨.inl rfl, by simp [Slot.reset]⟩)
  | setwave w => cases (exec_setwave w s).symm.trans h; exact .inl rfl
  | sine => exact .inl (exec_wave_active .sine v h)
  | saw => exact .inl (exec_wave_active .saw v h)
  | square => exact .inl (exec_wave_active .square v h)
  | tri => exact .inl (exec_wave_active .tri v h)
  | noise => exact .inl (exec_wave_active .noise v h)

/-- Settles O55, from what an instruction can do to an active bit. -/
theorem activeChangedByNoteonKillOrReset : Obligations.ActiveChangedByNoteonKillOrReset := by
  intro i s t v h
  rcases exec_active v h with hkeep | ⟨hi, hset⟩ | ⟨hi, hclear⟩
  · exact ⟨fun hs ht => by simp [hkeep, hs] at ht, fun hs ht => by simp [hkeep, hs] at ht⟩
  · exact ⟨fun _ _ => hi, fun _ ht => by simp [hset] at ht⟩
  · exact ⟨fun _ ht => by simp [hclear] at ht, fun _ _ => hi⟩

end Sys2Proof.Machine
end

section
/-! SUPPORT. The ranges of what the block computes: rounded results between given data, the increment,
the wrap, the rate and the waveform samples (rules R107, R130, R131, R162). -/

namespace Sys2Proof.Machine

/-! ### Ranges of data -/

theorem phaseInRange_iff {x : B64} :
    phaseInRange x = true ↔ ∃ m, unpack64 x = .fin false m ∧ m < twoPiValue := by
  unfold phaseInRange
  cases unpack64 x <;> simp [and_comm]

theorem nonNegative64_iff {x : B64} : nonNegative64 x = true ↔ ∃ m, unpack64 x = .fin false m := by
  unfold nonNegative64
  cases unpack64 x <;> simp

theorem inUnit32_iff {d : B32} : inUnit32 d = true ↔ ∃ v, value32 d = some v ∧ -1 ≤ v ∧ v ≤ 1 := by
  unfold inUnit32
  cases value32 d <;> simp

theorem inUnit64_iff {x : B64} : inUnit64 x = true ↔ ∃ v, value64 x = some v ∧ -1 ≤ v ∧ v ≤ 1 := by
  unfold inUnit64
  cases value64 x <;> simp

theorem rateInRange_iff {x : B64} :
    rateInRange x = true ↔ ∃ v, value64 x = some v ∧ 1 ≤ v ∧ v ≤ 1048576 := by
  unfold rateInRange
  cases value64 x <;> simp

/-- A finite datum above zero has a `+` sign. -/
theorem unpack64_of_value64_pos {a : B64} {x : ℚ} (h : value64 a = some x) (hx : 0 < x) :
    unpack64 a = .fin false x := by
  obtain ⟨s, m, hu, rfl, hm⟩ := unpack64_of_value64 h
  cases s
  · exact hu
  · simp only [signed, if_true] at hx; linarith

theorem value64_of_unpack64 {a : B64} {x : ℚ} (h : unpack64 a = .fin false x) : value64 a = some x := by
  rw [value64, h]; rfl

theorem unpack64_fin_nonneg {a : B64} {s : Bool} {x : ℚ} (h : unpack64 a = .fin s x) : 0 ≤ x := by
  obtain ⟨p, -, -, rfl⟩ := unpack64_eq_fin h
  exact binary64.magnitude_nonneg p

theorem value64_zero : value64 0 = some 0 := by decide +kernel

theorem value64_twoPi : value64 Config.twoPi = some twoPiValue := by decide +kernel

theorem value64_pi : value64 Config.pi = some (twoPiValue / 2) := by decide +kernel

/-! ### Rounded results -/

/-- A rounding between two finite data is finite and between them. -/
theorem Rounds64.value_between {d a b : B64} {v lo hi : ℚ} (h : Rounds64 d v) (ha : value64 a = some lo)
    (hb : value64 b = some hi) (hlo : lo ≤ v) (hhi : v ≤ hi) :
    ∃ w, value64 d = some w ∧ lo ≤ w ∧ w ≤ hi := by
  have hfin : ∃ w, value64 d = some w := by
    obtain ⟨s, m, hm, rfl, rfl⟩ := h
    obtain ⟨t, p, hp, -, rfl⟩ := value64_eq_some ha
    obtain ⟨u, q, hq, -, rfl⟩ := value64_eq_some hb
    have hle : m ≤ max (binary64.magnitude p) (binary64.magnitude q) := by
      rw [← abs_signed s hm, ← abs_signed t (binary64.magnitude_nonneg p),
        ← abs_signed u (binary64.magnitude_nonneg q)]
      exact abs_le_max_abs_abs hlo hhi
    have hlt : binary64.roundMag m < binary64.infPat := by
      rcases le_max_iff.mp hle with hle | hle
      · exact (binary64.roundMag_le hle).trans_lt hp
      · exact (binary64.roundMag_le hle).trans_lt hq
    exact ⟨_, value64_pack64 s hlt⟩
  obtain ⟨w, hw⟩ := hfin
  refine ⟨w, hw, le_of_not_gt fun hlt => ?_, le_of_not_gt fun hlt => ?_⟩
  · have hnear := h.nearest hw ha
    rw [abs_of_neg (by linarith), abs_of_nonpos (by linarith)] at hnear
    linarith
  · have hnear := h.nearest hw hb
    rw [abs_of_pos (by linarith), abs_of_nonneg (by linarith)] at hnear
    linarith

/-- A magnitude up to a finite one rounds to a datum with a `+` sign up to it. -/
theorem unpack64_pack64_roundMag {r : ℚ} {p : Nat} (hp : p < binary64.infPat)
    (hr : r ≤ binary64.magnitude p) :
    ∃ m, unpack64 (pack64 false (binary64.roundMag r)) = .fin false m ∧ m ≤ binary64.magnitude p := by
  have hle := binary64.roundMag_le hr
  have hlt := hle.trans_lt hp
  exact ⟨_, unpack64_pack64_fin false hlt, (binary64.magnitude_le_iff hlt.le hp.le).mpr hle⟩

/-! ### The increment -/

/-- `incr` of a frequency of at most 16384 hertz at a rate of at least 1 hertz is finite with a `+` sign,
and at most 2^17 (rule R130). -/
theorem unpack64_incr {f sr : B64} {x y : ℚ} (hf : unpack64 f = .fin false x) (hx : x ≤ 16384)
    (hsr : value64 sr = some y) (hy : 1 ≤ y) :
    ∃ m, unpack64 (incr f sr) = .fin false m ∧ m ≤ 131072 := by
  have hp : 0x4100000000000000 < binary64.infPat := by rw [binary64_infPat]; norm_num
  have hmag : binary64.magnitude 0x4100000000000000 = 131072 := by decide +kernel
  have htwoPi := unpack64_of_value64_pos value64_twoPi (by norm_num [twoPiValue])
  have hprod : twoPiValue * x ≤ 131072 :=
    calc twoPiValue * x ≤ twoPiValue * 16384 := by gcongr; norm_num [twoPiValue]
      _ ≤ 131072 := by norm_num [twoPiValue]
  obtain ⟨m, hm, hmle⟩ := unpack64_pack64_roundMag hp (hprod.trans_eq hmag.symm)
  have hquot : m / y ≤ m := div_le_self (unpack64_fin_nonneg hm) hy
  rw [incr, mul64_fin htwoPi hf, Bool.xor_self,
    div64_fin hm (unpack64_of_value64_pos hsr (by linarith)) (by linarith), ← hmag]
  exact unpack64_pack64_roundMag hp (hquot.trans hmle)

/-! ### The wrap -/

/-- A magnitude of at least 4 is a whole number of steps of 2^-50, the spacing of the data in [4, 8). -/
theorem magnitude_eq_steps {p : Nat} (h : 4 ≤ binary64.magnitude p) :
    ∃ n : Int, binary64.magnitude p = n / 2 ^ 50 := by
  obtain ⟨E, M, -, hM, -, hv⟩ := binary64.magnitude_parts p
  have hq : binary64.qMin = -1074 := by decide
  have hE : 1024 ≤ E := by
    by_contra hlt
    have hM' : (M : ℚ) < 2 ^ 53 := by exact_mod_cast hM
    have : binary64.magnitude p < 4 :=
      calc binary64.magnitude p = M * 2 ^ (binary64.qMin + (E : Int)) := hv
        _ < 2 ^ 53 * 2 ^ (binary64.qMin + (E : Int)) := by gcongr
        _ ≤ 2 ^ 53 * 2 ^ (-51 : Int) := by gcongr <;> [norm_num; omega]
        _ = 4 := by norm_num
    linarith
  obtain ⟨j, rfl⟩ := Nat.exists_eq_add_of_le hE
  refine ⟨M * 2 ^ j, ?_⟩
  rw [hv, hq, show (-1074 : Int) + ((1024 + j : Nat) : Int) = (j : Int) - 50 by push_cast; ring,
    zpow_sub₀ two_ne_zero]
  push_cast
  rw [zpow_natCast, mul_div_assoc]
  norm_num

/-- The exact remainder by `TWO_PI` of a finite sum is at most the datum just below `TWO_PI`. -/
theorem remainder_le_pred_twoPi {p : Nat} (hp : p < binary64.infPat) :
    binary64.magnitude p - (binary64.magnitude p / twoPiValue).floor * twoPiValue ≤
      binary64.magnitude 0x401921FB54442D17 := by
  have hpred : binary64.magnitude 0x401921FB54442D17 = 7074237752028439 / 2 ^ 50 := by decide +kernel
  have htwoPi : binary64.magnitude 0x401921FB54442D18 = twoPiValue := by decide +kernel
  have hpos : 0 < twoPiValue := by norm_num [twoPiValue]
  rcases lt_or_ge (binary64.magnitude p) twoPiValue with hlt | hge
  · have hzero : (binary64.magnitude p / twoPiValue).floor = 0 :=
      Int.floor_eq_zero_iff.mpr ⟨div_nonneg (binary64.magnitude_nonneg p) hpos.le, (div_lt_one hpos).mpr hlt⟩
    rw [← htwoPi, binary64.magnitude_lt_iff hp.le (by rw [binary64_infPat]; norm_num)] at hlt
    rw [hzero, Int.cast_zero, zero_mul, sub_zero,
      binary64.magnitude_le_iff hp.le (by rw [binary64_infPat]; norm_num)]
    omega
  · obtain ⟨n, hn⟩ := magnitude_eq_steps (le_trans (by norm_num [twoPiValue]) hge)
    set k := (binary64.magnitude p / twoPiValue).floor with hk
    have hfloor : binary64.magnitude p / twoPiValue < k + 1 := Int.lt_floor_add_one _
    rw [div_lt_iff₀ hpos, hn, twoPiValue] at hfloor
    have hint : n - k * 7074237752028440 < 7074237752028440 := by
      have : (n : ℚ) < (k + 1) * 7074237752028440 := by linarith
      have : n < (k + 1) * 7074237752028440 := by exact_mod_cast this
      linarith
    have hint' : (n : ℚ) - k * 7074237752028440 ≤ 7074237752028439 := by
      exact_mod_cast Int.lt_add_one_iff.mp hint
    rw [hn, hpred, twoPiValue]
    linarith

/-- `wrap` of a finite sum that is not negative is a phase in range (rule R131). -/
theorem phaseInRange_wrap {s : B64} {v : ℚ} (hs : value64 s = some v) (hv : 0 ≤ v) :
    phaseInRange (wrap s) = true := by
  have hpos : 0 < twoPiValue := by norm_num [twoPiValue]
  have hrem : 0 ≤ v - (v / twoPiValue).floor * twoPiValue :=
    sub_nonneg.mpr ((le_div_iff₀ hpos).mp (Int.floor_le (v / twoPiValue)))
  have hmag : ∃ p < binary64.infPat, v = binary64.magnitude p := by
    obtain ⟨t, p, hp, -, hvp⟩ := value64_eq_some hs
    exact ⟨p, hp, by rw [← abs_of_nonneg hv, hvp, abs_signed t (binary64.magnitude_nonneg p)]⟩
  obtain ⟨p, hp, rfl⟩ := hmag
  obtain ⟨hu, hle⟩ := unpack64_round64 (by rw [binary64_infPat]; norm_num) hrem (remainder_le_pred_twoPi hp)
  have hlt : binary64.magnitude 0x401921FB54442D17 < twoPiValue := by decide +kernel
  rw [phaseInRange_iff]
  simp only [wrap, hs, hv, if_true]
  exact ⟨_, hu, hle.trans_lt hlt⟩

/-- A phase in range advanced by an increment of at most 2^17 and wrapped is in range. -/
theorem phaseInRange_wrap_add64 {p d : B64} {y : ℚ} (hp : phaseInRange p = true)
    (hd : unpack64 d = .fin false y) (hy : y ≤ 131072) : phaseInRange (wrap (add64 p d)) = true := by
  obtain ⟨x, hx, hlt⟩ := phaseInRange_iff.mp hp
  have hx0 := unpack64_fin_nonneg hx
  have hy0 := unpack64_fin_nonneg hd
  have hsum := add64_rounds (value64_of_unpack64 hx) (value64_of_unpack64 hd)
  obtain ⟨w, hw, h0, -⟩ := hsum.value_between value64_zero
    (show value64 0x4110000000000000 = some 262144 by decide +kernel) (by linarith)
    (by norm_num [twoPiValue] at hlt; linarith)
  exact phaseInRange_wrap hw h0

/-! ### The rate -/

/-- `clampSr` gives a rate in range for every pattern but NaN (rule R162). -/
theorem rateInRange_clampSr {x : B64} (h : isNaN64 x = false) : rateInRange (clampSr x).1 = true := by
  have hmin : unpack64 Config.srMin = .fin false 1 := by decide +kernel
  have hmax : unpack64 Config.srMax = .fin false 1048576 := by decide +kernel
  unfold clampSr
  split_ifs with h1 h2
  · decide +kernel
  · decide +kernel
  · rw [rateInRange_iff]
    unfold lt64 at h1 h2
    rw [hmin] at h1
    rw [hmax] at h2
    cases hu : unpack64 x with
    | nan => simp [isNaN64, hu] at h
    | inf s => cases s <;> simp [hu, Datum.lt] at h1 h2
    | fin s m =>
      simp only [hu, Datum.lt, decide_eq_true_eq, not_lt] at h1 h2
      exact ⟨signed s m, by rw [value64, hu]; rfl, h1, h2⟩

/-! ### The waveform samples -/

theorem inUnit32_rne32 {x : B64} (h : inUnit64 x = true) : inUnit32 (rne32 x) = true := by
  obtain ⟨v, hv, hlo, hhi⟩ := inUnit64_iff.mp h
  have hone : binary32.magnitude 0x3F800000 = 1 := by decide +kernel
  obtain ⟨w, hw, hle⟩ := value32_rne32 hv (by rw [binary32_infPat]; norm_num)
    ((abs_le.mpr ⟨hlo, hhi⟩).trans_eq hone.symm)
  rw [hone] at hle
  exact inUnit32_iff.mpr ⟨w, hw, abs_le.mp hle⟩

theorem value64_one64 : value64 one64 = some 1 := by decide +kernel
theorem value64_two64 : value64 two64 = some 2 := by decide +kernel
theorem value64_three64 : value64 three64 = some 3 := by decide +kernel
theorem value64_four64 : value64 four64 = some 4 := by decide +kernel

/-- The fraction of a turn that a phase in range is: in [0, 1], and on the side of a half that the
comparison with `PI` says. -/
theorem value64_turn {p : B64} (hp : phaseInRange p = true) :
    ∃ y, value64 (div64 p Config.twoPi) = some y ∧
      if lt64 p Config.pi then 0 ≤ y ∧ y ≤ 1 / 2 else 1 / 2 ≤ y ∧ y ≤ 1 := by
  obtain ⟨x, hx, hlt⟩ := phaseInRange_iff.mp hp
  have hpos : 0 < twoPiValue := by norm_num [twoPiValue]
  have hvx := value64_of_unpack64 hx
  have hround := div64_rounds hvx value64_twoPi hpos.ne'
  have hhalf : value64 0x3FE0000000000000 = some (1 / 2) := by decide +kernel
  rw [lt64_fin hvx value64_pi]
  by_cases hpi : x < twoPiValue / 2
  · simpa [hpi] using hround.value_between value64_zero hhalf
      (div_nonneg (unpack64_fin_nonneg hx) hpos.le) (by rw [div_le_iff₀ hpos]; linarith)
  · simpa [hpi] using hround.value_between hhalf value64_one64
      (by rw [le_div_iff₀ hpos]; linarith) ((div_le_one hpos).mpr hlt.le)

theorem inUnit64_of_rounds {d : B64} {v : ℚ} (h : Rounds64 d v) (hlo : -1 ≤ v) (hhi : v ≤ 1) :
    inUnit64 d = true :=
  inUnit64_iff.mpr (h.value_between (show value64 0xBFF0000000000000 = some (-1) by decide +kernel)
    value64_one64 hlo hhi)

theorem inUnit32_sawSample {p : B64} (hp : phaseInRange p = true) : inUnit32 (sawSample p) = true := by
  obtain ⟨y, hy, hside⟩ := value64_turn hp
  have hrange : 0 ≤ y ∧ y ≤ 1 := by
    split_ifs at hside
    · exact ⟨hside.1, by linarith⟩
    · exact ⟨by linarith, hside.2⟩
  obtain ⟨q, hq, h0, h2⟩ := (mul64_rounds value64_two64 hy).value_between
    value64_zero value64_two64 (by linarith) (by linarith)
  exact inUnit32_rne32 (inUnit64_of_rounds (sub64_rounds hq value64_one64) (by linarith) (by linarith))

theorem inUnit32_triSample {p : B64} (hp : phaseInRange p = true) : inUnit32 (triSample p) = true := by
  obtain ⟨y, hy, hside⟩ := value64_turn hp
  have hround := mul64_rounds value64_four64 hy
  unfold triSample
  apply inUnit32_rne32
  split_ifs at hside ⊢
  · obtain ⟨q, hq, h0, h2⟩ := hround.value_between value64_zero
      value64_two64 (by linarith) (by linarith)
    exact inUnit64_of_rounds (sub64_rounds hq value64_one64) (by linarith) (by linarith)
  · obtain ⟨q, hq, h2, h4⟩ := hround.value_between value64_two64 value64_four64
      (by linarith) (by linarith)
    exact inUnit64_of_rounds (sub64_rounds value64_three64 hq) (by linarith) (by linarith)

theorem inUnit32_squareSample (p : B64) : inUnit32 (squareSample p) = true := by
  unfold squareSample
  split_ifs <;> decide +kernel

/-- Every waveform's sample at a phase in range is in [-1, 1], with a sine that has property S1 there and
an admissible draw (rule R107). -/
theorem inUnit32_gen {P : Config.Params} {p : B64} {d : B32} (w : Wave)
    (hsine : inUnit64 (P.sin64 p) = true) (hp : phaseInRange p = true) (hd : inUnit32 d = true) :
    inUnit32 (gen P w p d) = true := by
  cases w with
  | sine => exact inUnit32_rne32 hsine
  | saw => exact inUnit32_sawSample hp
  | square => exact inUnit32_squareSample p
  | tri => exact inUnit32_triSample hp
  | noise => exact hd

theorem inUnit32_noiseSample (k : Nat) (v : SlotIx) : inUnit32 (noiseSample k v) = true := by
  obtain ⟨x, hx, hlo, hhi⟩ := noiseSample_range k v
  exact inUnit32_iff.mpr ⟨x, hx, hlo, hhi.le⟩

/-! ### The hardware's parameters -/

theorem etHzDefault_range (n : Note) :
    ∃ v, value64 (etHzDefault n) = some v ∧ 0 < v ∧ v ≤ 16384 := by
  have h : ∀ n : Note, (value64 (etHzDefault n)).any (fun v => decide (0 < v ∧ v ≤ 16384)) = true := by
    decide +kernel
  simpa [Option.any_eq_true] using h n

theorem msb_pack64 (s : Bool) {p : Nat} (hp : p ≤ binary64.infPat) : (pack64 s p).msb = s := by
  rw [binary64_infPat] at hp
  rw [BitVec.msb_eq_decide, pack64_toNat s (by omega)]
  cases s <;> simp; omega

/-- A rounding at least -1 that is also the rounding of a rational at most 1 is in [-1, 1]. -/
theorem inUnit64_round64_of_eq {a b : ℚ} (ha : -1 ≤ a) (hb : b ≤ 1) (h : round64 a = round64 b) :
    inUnit64 (round64 a) = true := by
  rcases le_or_gt a 1 with ha1 | ha1
  · exact inUnit64_of_rounds (rounds64_round64 a) ha ha1
  rcases le_or_gt (-1) b with hb1 | hb1
  · rw [h]; exact inUnit64_of_rounds (rounds64_round64 b) hb1 hb
  -- otherwise one rounding has a `+` sign and the other a `-` sign
  rw [round64, round64, if_neg (by linarith), if_pos (by linarith)] at h
  have := congrArg BitVec.msb h
  rw [msb_pack64 _ (binary64.roundMag_le_infPat _), msb_pack64 _ (binary64.roundMag_le_infPat _)] at this
  cases this

theorem inUnit64_of_sinDecidedBy {x : ℚ} {r : B64} {ns : List Nat} (h : sinDecidedBy x ns = some r) :
    inUnit64 r = true := by
  induction ns with
  | nil => cases h
  | cons n ns ih =>
    unfold sinDecidedBy at h
    split at h
    · rename_i r' hat
      cases h
      unfold sinDecidedAt at hat
      split_ifs at hat with heq
      cases hat
      exact inUnit64_round64_of_eq (le_max_left _ _) (min_le_left _ _) heq
    · exact ih h

theorem inUnit64_sinFree (x : B64) : inUnit64 (sinFree x) = true := by
  unfold sinFree
  split
  · split_ifs with h
    · exact inUnit64_iff.mpr ⟨_, by assumption, h⟩
    · decide +kernel
  · decide +kernel

/-- The default sine has property S1 at every pattern (rule R102). -/
theorem inUnit64_sin64Default (x : B64) : inUnit64 (sin64Default x) = true := by
  unfold sin64Default
  split
  · rename_i v _
    cases hd : sinDecided v with
    | none => exact inUnit64_sinFree x
    | some r => exact inUnit64_of_sinDecidedBy hd
  · exact inUnit64_sinFree x

theorem usable_hardware : Usable hardware :=
  ⟨etHzDefault_range, fun x _ => inUnit64_sin64Default x⟩

end Sys2Proof.Machine
end

section
/-! SUPPORT. All that an instruction can do, said once for every instruction. -/

namespace Sys2Proof.Machine

/-- What an instruction does to a state: one constructor per path of the rules of each command and of the
waveform operations (rules R101, R133 to R135, R160 to R167). -/
inductive ExecEffect (s : State) : Instr → State → Prop
  | nop : ExecEffect s .nop s
  | prepareNan {d : B64} (h : isNaN64 d = true) : ExecEffect s (.prepare d) (s.raise .errSrNan)
  | prepareRate {d : B64} (h : isNaN64 d = false) :
      ExecEffect s (.prepare d) ((s.raiseIf (clampSr d).2 .infSrClamp).setRate (clampSr d).1)
  | latch :
      ExecEffect s .latch
        { s.raiseIf (sel s.wavePend).2 .infWaveClamp with waveCur := (sel s.wavePend).1 }
  | noteon (u : SlotIx) (n : BitVec 8) : ExecEffect s (.noteon u n) (s.noteOn hardware u n)
  | kill (u : SlotIx) : ExecEffect s (.kill u) (s.modifySlot u fun x => { x with active := false })
  | tickPrepared (h : s.prepared = true) :
      ExecEffect s .tick (s.advance.generate hardware s.waveCur)
  | tickUnprepared (h : s.prepared = false) :
      ExecEffect s .tick { s.raise .errUnprep with outValid := 0 }
  | readMapped {a : BitVec 8} (h : reservedAddr a = false) :
      ExecEffect s (.read a) { s with rdata := s.reg a }
  | readReserved {a : BitVec 8} (h : reservedAddr a = true) :
      ExecEffect s (.read a) { s.raise .errBadaddr with rdata := 0 }
  | clrerrLegal {m : BitVec 8} (h : m.getLsbD 7 = false) : ExecEffect s (.clrerr m) (s.clearEvents m)
  | clrerrIllegal {m : BitVec 8} (h : m.getLsbD 7 = true) : ExecEffect s (.clrerr m) s.illegalCommand
  | swreset : ExecEffect s .swreset s.resetBlock
  | setwave (w : B32) : ExecEffect s (.setwave w) { s with wavePend := w }
  | wave (w : Wave) : ExecEffect s w.instr (s.generate hardware w)

theorem execEffect_of_exec {i : Instr} {s t : State} (h : exec i s = .next t) : ExecEffect s i t := by
  cases i with
  | nop => cases h; exact .nop
  | prepare d =>
    cases hd : isNaN64 d
    · cases (exec_prepare_rate s hd).symm.trans h; exact .prepareRate hd
    · cases (exec_prepare_nan s hd).symm.trans h; exact .prepareNan hd
  | latch => cases (exec_latch s).symm.trans h; exact .latch
  | noteon u n => cases (exec_noteon u n s).symm.trans h; exact .noteon u n
  | kill u => cases (exec_kill u s).symm.trans h; exact .kill u
  | tick =>
    cases (exec_tick s).symm.trans h
    cases hs : s.prepared
    · rw [State.tick_unprepared s _ hs]; exact .tickUnprepared hs
    · rw [State.tick_prepared s _ hs]; exact .tickPrepared hs
  | read a =>
    cases ha : reservedAddr a
    · cases (exec_read_mapped s ha).symm.trans h; exact .readMapped ha
    · cases (exec_read_reserved s ha).symm.trans h; exact .readReserved ha
  | clrerr m =>
    cases hm : m.getLsbD 7
    · cases (exec_clrerr_legal s hm).symm.trans h; exact .clrerrLegal hm
    · cases (exec_clrerr_illegal s hm).symm.trans h; exact .clrerrIllegal hm
  | swreset => cases (exec_swreset s).symm.trans h; exact .swreset
  | setwave w => cases (exec_setwave w s).symm.trans h; exact .setwave w
  | sine => cases (exec_wave .sine s).symm.trans h; exact .wave .sine
  | saw => cases (exec_wave .saw s).symm.trans h; exact .wave .saw
  | square => cases (exec_wave .square s).symm.trans h; exact .wave .square
  | tri => cases (exec_wave .tri s).symm.trans h; exact .wave .tri
  | noise => cases (exec_wave .noise s).symm.trans h; exact .wave .noise

end Sys2Proof.Machine
end

section
/-! SUPPORT. The invariants of rule R38: each operation of the state keeps them, and the statements O15,
O48 and O49. -/

namespace Sys2Proof.Machine

/-! ### Moving the invariants between states -/

/-- What rule R38 says of a slot depends on the rest of the state through `SR` and `PREPARED` only. -/
theorem Slot.Good.of_same_rate {P : Config.Params} {s t : State} {x : Slot} (h : x.Good P s)
    (hsr : t.sr = s.sr) (hprep : t.prepared = s.prepared) : x.Good P t :=
  { h with inc := by simpa only [State.incFor, hsr, hprep] using h.inc }

/-- A state with the rate of one that meets the invariants meets them when its slots do. -/
theorem State.Inv.of_good_slots {P : Config.Params} {s t : State} (h : s.Inv P) (hsr : t.sr = s.sr)
    (hprep : t.prepared = s.prepared) (hslot : ∀ v, (t.slot v).Good P s) : t.Inv P where
  slots v := (hslot v).of_same_rate hsr hprep
  rate := by rw [hsr, hprep]; exact h.rate

/-- A change that leaves the slots and the rate alone keeps the invariants. -/
theorem State.Inv.of_frame {P : Config.Params} {s t : State} (h : s.Inv P) (hslots : t.slots = s.slots)
    (hsr : t.sr = s.sr) (hprep : t.prepared = s.prepared) : t.Inv P :=
  h.of_good_slots hsr hprep fun v => by
    rw [State.slot, hslots]
    exact h.slots v

theorem State.Inv.rate_of_prepared {P : Config.Params} {s : State} (h : s.Inv P) (hs : s.prepared = true) :
    rateInRange s.sr = true := by
  simpa only [hs, if_true] using h.rate

/-! ### Increments -/

/-- A frequency the block can hold is finite with a `+` sign, and at most 16384 hertz. -/
theorem Usable.unpack64_frequency {P : Config.Params} (hP : Usable P) {f : B64}
    (hf : f = 0 ∨ ∃ n, f = P.etHz n) : ∃ x, unpack64 f = .fin false x ∧ x ≤ 16384 := by
  rcases hf with rfl | ⟨n, rfl⟩
  · exact ⟨0, by decide +kernel, by norm_num⟩
  · obtain ⟨x, hx, hpos, hle⟩ := hP.frequency n
    exact ⟨x, unpack64_of_value64_pos hx hpos, hle⟩

/-- The increment of a frequency the block can hold is finite with a `+` sign, and at most 2^17. -/
theorem Usable.unpack64_incFor {P : Config.Params} (hP : Usable P) {s : State} {f : B64}
    (hs : s.prepared = true → rateInRange s.sr = true) (hf : f = 0 ∨ ∃ n, f = P.etHz n) :
    ∃ y, unpack64 (s.incFor f) = .fin false y ∧ y ≤ 131072 := by
  unfold State.incFor
  split
  · rename_i hprep
    obtain ⟨x, hx, hxle⟩ := hP.unpack64_frequency hf
    obtain ⟨r, hr, h1, -⟩ := rateInRange_iff.mp (hs hprep)
    exact unpack64_incr hx hxle hr h1
  · exact ⟨0, by decide +kernel, by norm_num⟩

theorem Usable.nonNegative64_incFor {P : Config.Params} (hP : Usable P) {s : State} {f : B64}
    (hs : s.prepared = true → rateInRange s.sr = true) (hf : f = 0 ∨ ∃ n, f = P.etHz n) :
    nonNegative64 (s.incFor f) = true := by
  obtain ⟨y, hy, -⟩ := hP.unpack64_incFor hs hf
  exact nonNegative64_iff.mpr ⟨y, hy⟩

/-! ### The operations -/

theorem phaseInRange_zero : phaseInRange 0 = true := by decide +kernel

theorem inUnit32_zero : inUnit32 0 = true := by decide +kernel

/-- A slot after reset is good for any table in an unprepared state. -/
theorem Slot.good_reset (P : Config.Params) {s : State} (hs : s.prepared = false) :
    Slot.reset.Good P s where
  phase := phaseInRange_zero
  freq := .inl rfl
  inc := by simp [State.incFor, hs, Slot.reset]
  incNonNegative := by decide +kernel
  out := inUnit32_zero
  active := nofun

theorem State.resetBlock_inv (P : Config.Params) (s : State) : s.resetBlock.Inv P where
  slots v := by
    rw [State.resetBlock_slot]
    exact Slot.good_reset P rfl
  rate := rfl

section
variable {P : Config.Params} {s : State}

/-- The accepted rate makes every increment that of the new rate (rule R161). -/
theorem State.Inv.setRate (h : s.Inv P) (hP : Usable P) {r : B64} (hr : rateInRange r = true) :
    (s.setRate r).Inv P where
  slots v := by
    rw [State.setRate_slot]
    have hgood := h.slots v
    have hinc : incr (s.slot v).freq r = (s.setRate r).incFor (s.slot v).freq := by simp [State.incFor]
    refine ⟨hgood.phase, hgood.freq, hinc, ?_, hgood.out, hgood.active⟩
    rw [hinc]
    exact hP.nonNegative64_incFor (fun _ => hr) (hgood.freq.imp_right fun hf => ⟨_, hf⟩)
  rate := by rw [State.setRate_prepared, if_pos rfl]; exact hr

theorem State.Inv.noteOn (h : s.Inv P) (hP : Usable P) (v : SlotIx) (n : BitVec 8) :
    (s.noteOn P v n).Inv P := by
  refine h.of_good_slots (by simp) (by simp) fun u => ?_
  rw [State.noteOn_slot]
  split_ifs
  · exact ⟨phaseInRange_zero, .inr rfl, rfl, hP.nonNegative64_incFor h.rate_of_prepared (.inr ⟨_, rfl⟩),
      (h.slots u).out, fun _ => rfl⟩
  · exact h.slots u

theorem State.Inv.kill (h : s.Inv P) (v : SlotIx) :
    (s.modifySlot v fun x => { x with active := false }).Inv P := by
  refine h.of_good_slots rfl rfl fun u => ?_
  rw [State.modifySlot_slot]
  split_ifs
  · exact { h.slots u with active := nofun }
  · exact h.slots u

/-- The first part of `TICK` keeps a slot good: its increment is small enough for the
sum to be finite (rules R131, R135). -/
theorem Slot.Good.advance (hP : Usable P) (hs : s.prepared = true → rateInRange s.sr = true)
    {x : Slot} (h : x.Good P s) : (advanceLane x).Good P s := by
  obtain ⟨y, hy, hyle⟩ := hP.unpack64_incFor hs (h.freq.imp_right fun hf => ⟨_, hf⟩)
  rw [← h.inc] at hy
  unfold advanceLane
  split_ifs
  · exact { h with phase := phaseInRange_wrap_add64 h.phase hy hyle }
  · exact { h with out := inUnit32_zero }

theorem State.Inv.advance (h : s.Inv P) (hP : Usable P) : s.advance.Inv P :=
  h.of_good_slots rfl rfl fun v => by
    rw [State.advance_slot]
    exact (h.slots v).advance hP h.rate_of_prepared

theorem State.Inv.generate (h : s.Inv P) (hP : Usable P) (w : Wave) : (s.generate P w).Inv P := by
  refine h.of_good_slots rfl rfl fun v => ?_
  have hgood := h.slots v
  rw [State.generate_slot]
  split_ifs
  · exact { hgood with
      out := inUnit32_gen w (hP.sine _ hgood.phase) hgood.phase (inUnit32_noiseSample _ _) }
  · exact hgood

theorem State.Inv.tick (h : s.Inv P) (hP : Usable P) : (s.tick P).Inv P := by
  cases hs : s.prepared
  · rw [State.tick_unprepared s P hs]; exact h.of_frame rfl rfl rfl
  · rw [State.tick_prepared s P hs]; exact (h.advance hP).generate hP s.waveCur

theorem State.Inv.prepare (h : s.Inv P) (hP : Usable P) {d : B64} {t : State}
    (ht : exec (.prepare d) s = .next t) : t.Inv P := by
  cases hd : isNaN64 d
  · cases (exec_prepare_rate s hd).symm.trans ht
    have hraise : (s.raiseIf (clampSr d).2 .infSrClamp).Inv P :=
      h.of_frame (by simp) (by simp) (by simp)
    exact hraise.setRate hP (rateInRange_clampSr hd)
  · cases (exec_prepare_nan s hd).symm.trans ht
    exact h.of_frame rfl rfl rfl

end

/-! ### Instructions and steps -/

/-- Every instruction keeps the invariants. -/
theorem State.Inv.of_exec {i : Instr} {s t : State} (h : s.Inv hardware) (ht : exec i s = .next t) :
    t.Inv hardware := by
  cases execEffect_of_exec ht with
  | nop => exact h
  | prepareNan => exact h.prepare usable_hardware ht
  | prepareRate => exact h.prepare usable_hardware ht
  | noteon u n => exact h.noteOn usable_hardware u n
  | kill u => exact h.kill u
  | tickPrepared => exact (h.advance usable_hardware).generate usable_hardware s.waveCur
  | swreset => exact s.resetBlock_inv hardware
  | wave w => exact h.generate usable_hardware w
  | latch => exact h.of_frame (by simp) (by simp) (by simp)
  | tickUnprepared => exact h.of_frame rfl rfl rfl
  | readMapped => exact h.of_frame rfl rfl rfl
  | readReserved => exact h.of_frame rfl rfl rfl
  | clrerrLegal => exact h.of_frame rfl rfl rfl
  | clrerrIllegal => exact h.of_frame rfl rfl rfl
  | setwave w => exact h.of_frame rfl rfl rfl

/-- Settles O48: of all that a step can do, a decoded command keeps the invariants as its instruction
does, a reset establishes them, and the rest touches neither a slot nor the rate. -/
theorem stepKeepsInvariants : Obligations.StepKeepsInvariants := by
  intro s t h hstep
  have htaken : ∀ rest, State.Inv hardware { s with inputs := rest } := fun rest =>
    h.of_frame rfl rfl rfl
  rcases step_cases hstep with ⟨-, rfl⟩ | ⟨rest, -, ⟨cmd, data, i, -, -, hexec⟩ |
    ⟨cmd, data, e, -, -, rfl⟩ | ⟨w, -, rfl⟩ | ⟨a, w, -, -, rfl⟩ | ⟨-, rfl⟩⟩
  · exact h
  · exact (htaken rest).of_exec hexec
  · exact h.of_frame rfl rfl rfl
  · exact h.of_frame rfl rfl rfl
  · exact htaken rest
  · exact State.resetBlock_inv hardware _

/-- Settles O49, from the operations' lemmas. -/
theorem usableParametersKeepInvariants : Obligations.UsableParametersKeepInvariants :=
  fun _ _ hP h => ⟨fun v n => h.noteOn hP v n, h.tick hP, fun _ _ ht => h.prepare hP ht⟩

/-- Settles O15: every slot is a slot after reset, and the block is unprepared. -/
theorem resetMeetsInvariants : Obligations.ResetMeetsInvariants := fun P =>
  { slots := fun v => by rw [State.slot_reset]; exact Slot.good_reset P rfl
    rate := rfl }

end Sys2Proof.Machine
end

section
/-! SUPPORT. The state after reset, the view `STATUS` and the writers of each register: the statements
O11, O14, O52 to O54 and O56 to O59 (rules R20 to R37). -/

namespace Sys2Proof.Machine

/-! ### Reset -/

/-- Settles O14: every slot after reset is `Slot.reset`, and the other values are the record's own. -/
theorem resetValues : Obligations.ResetValues := by
  refine ⟨fun v => ?_, rfl, rfl, rfl, rfl, rfl, by decide, rfl, rfl⟩
  rw [State.outPort, State.slot_reset]
  exact ⟨rfl, rfl, rfl, rfl, rfl, rfl, rfl⟩

/-- The reset input, when it is the oldest event, resets the block (rule R230). -/
theorem step_rst {s : State} {rest : List Input} (h : s.inputs = .rst :: rest) :
    step s = .next (State.resetBlock { s with inputs := rest }) := by
  rw [step, takeInput, h]
  rfl

/-- Settles O11: both resets are `State.resetBlock`. -/
theorem resetInputEffect : Obligations.ResetInputEffect := by
  intro s rest h
  refine ⟨_, step_rst h, exec_swreset _, fun v => ?_, rfl, rfl, rfl, rfl, rfl, rfl, rfl, rfl, rfl, rfl⟩
  rw [State.outPort, State.resetBlock_slot]
  exact ⟨rfl, rfl⟩

/-! ### STATUS -/

/-- A bit of `STATUS` by the field it lies in, from the lowest field up (rule R31). -/
theorem State.status_bit (s : State) (k : Nat) :
    s.status.getLsbD k =
      if k < 8 then s.activeMask.getLsbD k
      else if k = 8 then s.prepared
      else if k < 16 then false
      else s.sticky.getLsbD (k - 16) := by
  simp only [State.status, BitVec.getLsbD_append, BitVec.getLsbD_ofBool, BitVec.getLsbD_zero]
  obtain h | rfl | ⟨h, h'⟩ | h : k < 8 ∨ k = 8 ∨ (8 < k ∧ k < 16) ∨ 16 ≤ k := by omega
  · rw [if_pos h, if_pos h]
  · simp
  · simp only [show ¬k < 8 by omega, show ¬k - 8 < 1 by omega, show k - 8 - 1 < 7 by omega, h.ne', h',
      if_true, if_false]
  · simp only [show ¬k < 8 by omega, show ¬k - 8 < 1 by omega, show ¬k - 8 - 1 < 7 by omega,
      show k ≠ 8 by omega, show ¬k < 16 by omega, show k - 8 - 1 - 7 = k - 16 by omega, if_false]
    split_ifs with hsticky
    · rfl
    · exact (BitVec.getLsbD_of_ge _ _ (by omega)).symm

/-- Settles O54, from the bits of `STATUS` by field. -/
theorem statusLayout : Obligations.StatusLayout := by
  intro s
  refine ⟨fun v => ?_, ?_, fun k h9 h15 => ?_, fun k _ => ?_, fun k h23 => ?_⟩ <;>
    rw [State.status_bit]
  · rw [if_pos v.isLt, State.activeMask_bit]
  · rw [if_neg (by omega), if_pos rfl]
  · rw [if_neg (by omega), if_neg (by omega), if_pos (by omega)]
  · rw [if_neg (by omega), if_neg (by omega), if_neg (by omega), Nat.add_sub_cancel_left]
  · rw [if_neg (by omega), if_neg (by omega), if_neg (by omega), BitVec.getLsbD_of_ge _ _ (by omega)]

/-! ### The sticky bits -/

theorem setSticky_keeps_bit (e : Event) {b : BitVec 7} {k : Nat} (h : b.getLsbD k = true) :
    (setSticky e b).getLsbD k = true := by
  rw [setSticky_bit e b (BitVec.lt_of_getLsbD h), h, Bool.true_or]

/-- An instruction keeps every sticky bit that is set, or it is `SWRESET`, or it is `CLRERR` and clears
the bits of its mask (rules R31, R205). -/
theorem exec_sticky {i : Instr} {s t : State} (h : exec i s = .next t) :
    (∀ k, s.sticky.getLsbD k = true → t.sticky.getLsbD k = true) ∨ i = .swreset ∨
      ∃ m, i = .clrerr m ∧ t.sticky = clearSticky m s.sticky := by
  have hraise : ∀ e k, s.sticky.getLsbD k = true → (setSticky e s.sticky).getLsbD k = true :=
    fun e _ => setSticky_keeps_bit e
  have hraiseIf : ∀ (c : Bool) e k, s.sticky.getLsbD k = true →
      (if c then setSticky e s.sticky else s.sticky).getLsbD k = true := by
    intro c e k hk
    cases c
    · exact hk
    · exact hraise e k hk
  cases execEffect_of_exec h with
  | nop => exact .inl fun _ => id
  | prepareNan => exact .inl (hraise _)
  | prepareRate => exact .inl (by simpa using hraiseIf _ _)
  | latch => exact .inl (by simpa using hraiseIf _ _)
  | noteon => exact .inl (by simpa using hraiseIf _ _)
  | kill => exact .inl fun _ => id
  | tickPrepared => exact .inl fun _ => id
  | tickUnprepared => exact .inl (hraise _)
  | readMapped => exact .inl fun _ => id
  | readReserved => exact .inl (hraise _)
  | @clrerrLegal m => exact .inr (.inr ⟨m, rfl, rfl⟩)
  | clrerrIllegal => exact .inl (hraise _)
  | swreset => exact .inr (.inl rfl)
  | setwave => exact .inl fun _ => id
  | wave => exact .inl fun _ => id

/-- Settles O52, from what an instruction can do to the sticky bits. -/
theorem stickyClearedByClrerrOrReset : Obligations.StickyClearedByClrerrOrReset := by
  intro i s t k h hs ht
  rcases exec_sticky h with hkeep | hreset | ⟨m, hi, hclear⟩
  · simp [hkeep k hs] at ht
  · exact .inl hreset
  · rw [hclear, clearSticky_bit m _ (BitVec.lt_of_getLsbD hs), hs] at ht
    exact .inr ⟨m, hi, by simpa using ht⟩

/-- Raising an event under a condition, from other sticky bits, gives the same but for the sticky bits. -/
theorem State.raiseIf_sticky_irrelevant (s : State) (b : BitVec 7) (c : Bool) (e : Event) :
    State.raiseIf c e { s with sticky := b } =
      { s.raiseIf c e with sticky := if c then setSticky e b else b } := by
  cases c <;> rfl

/-- Of the read-back map only `STATUS` shows the sticky bits (rule R51). -/
theorem State.reg_sticky_irrelevant (s : State) (b : BitVec 7) {a : BitVec 8} (ha : a ≠ 0x2B) :
    State.reg { s with sticky := b } a = s.reg a := by
  have hstatus : a.toNat ≠ 0x2B := fun h => ha (BitVec.eq_of_toNat_eq h)
  simp only [State.reg, hstatus, if_false]
  rfl

/-- Settles O53, path by path: no condition of an instruction reads a sticky bit, and of the values that
it writes only the sticky bits and `STATUS` do. -/
theorem statusBitsAlterNothing : Obligations.StatusBitsAlterNothing := by
  intro i s t b hi h
  cases execEffect_of_exec h with
  | nop => exact ⟨b, rfl⟩
  | prepareNan hd => exact ⟨_, exec_prepare_nan _ hd⟩
  | prepareRate hd =>
    exact ⟨_, by rw [exec_prepare_rate _ hd, State.raiseIf_sticky_irrelevant]; rfl⟩
  | latch => exact ⟨_, by rw [exec_latch, State.raiseIf_sticky_irrelevant]⟩
  | noteon u n =>
    exact ⟨_, by rw [exec_noteon, State.noteOn, State.raiseIf_sticky_irrelevant]; rfl⟩
  | kill u => exact ⟨b, exec_kill u _⟩
  | tickPrepared hs => exact ⟨b, by rw [exec_tick, State.tick_prepared _ _ (by exact hs)]; rfl⟩
  | tickUnprepared hs => exact ⟨_, by rw [exec_tick, State.tick_unprepared _ _ (by exact hs)]; rfl⟩
  | readMapped ha =>
    refine ⟨b, (exec_read_mapped _ ha).trans ?_⟩
    rw [State.reg_sticky_irrelevant s b (by rintro rfl; exact hi rfl)]
  | readReserved ha => exact ⟨_, exec_read_reserved _ ha⟩
  | clrerrLegal hm => exact ⟨_, exec_clrerr_legal _ hm⟩
  | clrerrIllegal hm => exact ⟨_, exec_clrerr_illegal _ hm⟩
  | swreset => exact ⟨0, exec_swreset _⟩
  | setwave w => exact ⟨b, exec_setwave w _⟩
  | wave w => exact ⟨b, exec_wave w _⟩

/-! ### The registers of a slot -/

/-- Settles O56: on each path the slot keeps every register but those that the statement lets the
instruction write. -/
theorem slotRegisterWriters : Obligations.SlotRegisterWriters := by
  intro i s t v h
  cases execEffect_of_exec h with
  | swreset => simp
  | prepareRate => simp
  | noteon u n => by_cases hu : v = u <;> simp [hu]
  | kill u => by_cases hu : v = u <;> simp [hu]
  | tickPrepared => cases ha : (s.slot v).active <;> simp [advanceLane, ha]
  | wave w => cases ha : (s.slot v).active <;> simp [ha]
  -- the other paths keep the slot file
  | _ => simp [State.slot]

/-! ### The registers outside the slots

In each proof the first paths are the ones that write, whose instruction the statement names; the others
keep the registers. -/

/-- Settles O57: of the instructions' paths, `PREPARE`'s with a rate and `SWRESET`'s write `SR` and
`PREPARED`. -/
theorem rateWrittenByPrepareOrReset : Obligations.RateWrittenByPrepareOrReset := by
  intro i s t h
  cases execEffect_of_exec h with
  | prepareRate => simp
  | swreset => simp
  | wave w => exact ⟨by simp, fun hs ht => absurd (hs.symm.trans ht) (by decide)⟩
  | _ => simp

/-- Settles O58: of the instructions' paths, `LATCH`'s and `SWRESET`'s write `WAVE_CUR`, and `SETWAVE`'s
and `SWRESET`'s write `WAVE_PEND`. -/
theorem selectorWrittenByLatchOrReset : Obligations.SelectorWrittenByLatchOrReset := by
  intro i s t h
  cases execEffect_of_exec h with
  | latch => simp
  | setwave w => simp
  | swreset => simp
  | _ => simp

/-- Settles O59: of the instructions' paths, `READ`'s and `SWRESET`'s write `rdata`, and `TICK`'s and
`SWRESET`'s write `out_valid`. -/
theorem outputLatchWriters : Obligations.OutputLatchWriters := by
  intro i s t h
  cases execEffect_of_exec h with
  | readMapped => simp
  | readReserved => simp
  | tickPrepared => simp
  | tickUnprepared => simp
  | swreset => simp
  | _ => simp

end Sys2Proof.Machine
end

section
/-! SUPPORT. What a step does with each kind of event, and the statements O8 and O12 (rules R56, R57, R78,
R79, R200, R231). -/

namespace Sys2Proof.Machine

/-! ### The step of each kind of event -/

section
variable {s : State} {rest : List Input}

/-- With no event presented the block waits (rule R231, log 3). -/
theorem step_idle (h : s.inputs = []) : step s = .next s := by
  rw [step, takeInput, h]

theorem step_command_legal {cmd : BitVec 32} {data : BitVec 64} {i : Instr}
    (h : s.inputs = .command cmd data :: rest) (hd : decodeCommand cmd data = .ok i) :
    step s = exec i { s with inputs := rest } := by
  simp only [step, takeInput, h, serve, serveCommand, hd]

theorem step_command_illegal {cmd : BitVec 32} {data : BitVec 64} {e : Reject}
    (h : s.inputs = .command cmd data :: rest) (hd : decodeCommand cmd data = .error e) :
    step s = .next (State.illegalCommand { s with inputs := rest }) := by
  simp only [step, takeInput, h, serve, serveCommand, hd]

theorem step_param_own {w : BitVec 32} (h : s.inputs = .param 0 w :: rest) :
    step s = exec (.setwave w) { s with inputs := rest } := by
  simp only [step, takeInput, h, serve, serveParam, decodeParam, if_pos]

theorem step_param_foreign {a : BitVec 4} {w : BitVec 32} (h : s.inputs = .param a w :: rest)
    (ha : a ≠ 0) : step s = .next { s with inputs := rest } := by
  simp only [step, takeInput, h, serve, serveParam, decodeParam, if_neg ha]

end

/-- Settles O8, from the steps of a legal command, of a write to address 0, and of no event. -/
theorem stepRunsDecodedInstruction : Obligations.StepRunsDecodedInstruction :=
  ⟨fun _ _ _ _ _ => step_command_legal, fun _ _ _ => step_param_own, fun _ => step_idle⟩

/-! ### The events still to come -/

/-- No instruction presents or takes an event (log 3). -/
theorem exec_inputs {i : Instr} {s t : State} (h : exec i s = .next t) : t.inputs = s.inputs := by
  cases execEffect_of_exec h <;> simp

/-- Settles O12: with no event the block waits; a legal command or a write to address 0 runs an
instruction, which goes on and leaves the coming events alone; the other events are served at once. -/
theorem everyStepGoesOn : Obligations.EveryStepGoesOn := by
  intro s
  cases hin : s.inputs with
  | nil => exact ⟨s, step_idle hin, hin⟩
  | cons e rest =>
    have hrun : ∀ i, step s = exec i { s with inputs := rest } →
        ∃ t, step s = .next t ∧ t.inputs = rest := fun i hstep => by
      obtain ⟨t, ht⟩ := exec_goes_on i { s with inputs := rest }
      exact ⟨t, hstep.trans ht, exec_inputs ht⟩
    cases e with
    | command cmd data =>
      cases hd : decodeCommand cmd data with
      | ok i => exact hrun i (step_command_legal hin hd)
      | error _ => exact ⟨_, step_command_illegal hin hd, rfl⟩
    | param a w =>
      by_cases ha : a = 0
      · subst ha
        exact hrun (.setwave w) (step_param_own hin)
      · exact ⟨_, step_param_foreign hin ha, rfl⟩
    | rst => exact ⟨_, step_rst hin, rfl⟩

end Sys2Proof.Machine
end

section
/-! SUPPORT. The read-back space: `READ` of each address, and the statements O22 to O24 (rules R51, R52,
R63, R165). -/

namespace Sys2Proof.Machine

/-! ### Mapped and reserved addresses -/

theorem reservedAddr_of_le {a : BitVec 8} (h : 0x2D ≤ a.toNat) : reservedAddr a = true :=
  decide_eq_true h

theorem reservedAddr_of_lt {a : BitVec 8} (h : a.toNat < 0x2D) : reservedAddr a = false :=
  decide_eq_false (Nat.not_le.mpr h)

/-- `READ` of a mapped address puts the value of the read-back map into `rdata` (rule R51). -/
theorem exec_read_value {a : BitVec 8} {s : State} {x : BitVec 64} (ha : a.toNat < 0x2D)
    (hx : s.reg a = x) : exec (.read a) s = .next { s with rdata := x } := by
  rw [exec_read_mapped s (reservedAddr_of_lt ha), hx]

/-- Settles O23: `READ` of a reserved address is the raise of `ERR_BADADDR` with `rdata` 0. -/
theorem readReservedAddress : Obligations.ReadReservedAddress := by
  intro a s ha
  refine ⟨_, exec_read_reserved s (reservedAddr_of_le ha), rfl, ?_, fun _ => rfl, rfl, rfl, rfl, rfl, rfl⟩
  exact stickyAfter_of_eq (e := .errBadaddr) (c := true) rfl

/-! ### The registers of the slots -/

/-- Slot `v`'s address in a block of eight addresses that begins at `8 * k`. -/
theorem slotAddress_toNat (v : SlotIx) {k : Nat} (hk : k < 5) :
    (BitVec.ofNat 8 (8 * k) + v.setWidth 8).toNat = 8 * k + v.toNat := by
  have hv := v.isLt
  simp only [BitVec.toNat_add, BitVec.toNat_ofNat, BitVec.toNat_setWidth]
  omega

/-- The low three bits of an address in such a block are the slot (rule R51). -/
theorem slotAddress_slot (v : SlotIx) {k : Nat} (hk : k < 5) :
    (BitVec.ofNat 8 (8 * k) + v.setWidth 8).setWidth 3 = v := by
  apply BitVec.eq_of_toNat_eq
  rw [BitVec.toNat_setWidth, slotAddress_toNat v hk]
  have hv := v.isLt
  omega

/-- The register of a slot that block `k` of the read-back map shows (rule R51). -/
def Slot.shown (x : Slot) (k : Nat) : BitVec 64 :=
  match k with
  | 0 => x.phase
  | 1 => x.freq
  | 2 => x.inc
  | 3 => x.note.setWidth 64
  | _ => x.out.setWidth 64

theorem State.reg_slot (s : State) (v : SlotIx) {k : Nat} (hk : k < 5) :
    s.reg (BitVec.ofNat 8 (8 * k) + v.setWidth 8) = (s.slot v).shown k := by
  have hv := v.isLt
  simp only [State.reg, slotAddress_slot v hk, slotAddress_toNat v hk]
  obtain rfl | rfl | rfl | rfl | rfl : k = 0 ∨ k = 1 ∨ k = 2 ∨ k = 3 ∨ k = 4 := by omega
  · rw [if_pos (by omega)]; rfl
  · rw [if_neg (by omega), if_pos (by omega)]; rfl
  · rw [if_neg (by omega), if_neg (by omega), if_pos (by omega)]; rfl
  · rw [if_neg (by omega), if_neg (by omega), if_neg (by omega), if_pos (by omega)]; rfl
  · rw [if_neg (by omega), if_neg (by omega), if_neg (by omega), if_neg (by omega),
      if_pos (by omega)]; rfl

/-- `READ` of slot `v`'s address in block `k`. -/
theorem exec_read_slot (s : State) (v : SlotIx) {k : Nat} (hk : k < 5) :
    exec (.read (BitVec.ofNat 8 (8 * k) + v.setWidth 8)) s =
      .next { s with rdata := (s.slot v).shown k } := by
  refine exec_read_value ?_ (s.reg_slot v hk)
  rw [slotAddress_toNat v hk]
  have hv := v.isLt
  omega

/-- Settles O22: blocks 0 to 4 show the slots' registers, the five addresses above them the others, and
the rest are reserved. -/
theorem readMap : Obligations.ReadMap := by
  intro s v
  have hslot (k : Nat) (hk : k < 5) := exec_read_slot s v hk
  have hglobal (a : BitVec 8) (ha : a.toNat < 0x2D) := exec_read_value (s := s) ha rfl
  refine ⟨hslot 0 (by decide), hslot 1 (by decide), hslot 2 (by decide), hslot 3 (by decide),
    hslot 4 (by decide), hglobal 0x28 (by decide), hglobal 0x29 (by decide), hglobal 0x2A (by decide),
    hglobal 0x2B (by decide), hglobal 0x2C (by decide), fun a ha => ?_⟩
  obtain ⟨t, ht, hrdata, hsticky, -⟩ := readReservedAddress a s ha
  exact ⟨t, ht, hrdata, by simpa using hsticky 3 (by decide)⟩

/-! ### Reading twice -/

/-- No value of the read-back map depends on `rdata`. -/
theorem State.reg_rdata_irrelevant (s : State) (x : BitVec 64) (a : BitVec 8) :
    State.reg { s with rdata := x } a = s.reg a := rfl

/-- Settles O24: a reserved address reads 0 both times, and for a mapped one the first `READ` changes
nothing that the map shows. -/
theorem readTwiceSameValue : Obligations.ReadTwiceSameValue := by
  intro a s t u hs ht
  cases ha : reservedAddr a
  · cases (exec_read_mapped s ha).symm.trans hs
    cases (exec_read_mapped _ ha).symm.trans ht
    exact s.reg_rdata_irrelevant _ a
  · cases (exec_read_reserved s ha).symm.trans hs
    cases (exec_read_reserved _ ha).symm.trans ht
    rfl

end Sys2Proof.Machine
end

section
/-! SUPPORT. What does not depend on `WAVE_PEND`, and the statement O60 (rules R58, R59). -/

namespace Sys2Proof.Machine

/-- Raising an event under a condition and storing a pattern in `WAVE_PEND` commute. -/
theorem State.raiseIf_wavePend_comm (s : State) (w : B32) (c : Bool) (e : Event) :
    State.raiseIf c e { s with wavePend := w } = { s.raiseIf c e with wavePend := w } := by
  cases c <;> rfl

/-- Only address 0x29 of the read-back map shows `WAVE_PEND` (rule R51). -/
theorem State.reg_wavePend_irrelevant (s : State) (w : B32) {a : BitVec 8} (ha : a ≠ 0x29) :
    State.reg { s with wavePend := w } a = s.reg a := by
  have hpend : a.toNat ≠ 0x29 := fun h => ha (BitVec.eq_of_toNat_eq h)
  simp only [State.reg, hpend, if_false]
  rfl

/-- Settles O60, path by path: apart from the four instructions left out, no path reads `WAVE_PEND` and
none writes it. -/
theorem parameterWriteCommutes : Obligations.ParameterWriteCommutes := by
  intro i s t w hlatch hswreset hread hsetwave h
  cases execEffect_of_exec h with
  | nop => rfl
  | prepareNan hd => exact exec_prepare_nan _ hd
  | prepareRate hd => rw [exec_prepare_rate _ hd, State.raiseIf_wavePend_comm]; rfl
  | latch => exact absurd rfl hlatch
  | noteon u n => rw [exec_noteon, State.noteOn, State.raiseIf_wavePend_comm]; rfl
  | kill u => exact exec_kill u _
  | tickPrepared hs => rw [exec_tick, State.tick_prepared _ _ (by exact hs)]; rfl
  | tickUnprepared hs => rw [exec_tick, State.tick_unprepared _ _ (by exact hs)]; rfl
  | readMapped ha =>
    rw [exec_read_mapped _ ha, State.reg_wavePend_irrelevant s w (by rintro rfl; exact hread rfl)]
  | readReserved ha => exact exec_read_reserved _ ha
  | clrerrLegal hm => exact exec_clrerr_legal _ hm
  | clrerrIllegal hm => exact exec_clrerr_illegal _ hm
  | swreset => exact absurd rfl hswreset
  | setwave w' => exact absurd rfl (hsetwave w')
  | wave v => exact exec_wave v _

end Sys2Proof.Machine
end

section
/-! SUPPORT. The fields of a command word, what the command decoder accepts and rejects, and the statements
O1 to O7 and O10 (rules R71 to R83). -/

namespace Sys2Proof.Machine

/-! ### The fields of a command word -/

section
variable (op : BitVec 4) (rsv : BitVec 17) (v : SlotIx) (imm : BitVec 8)

theorem opField_append : opField (op ++ rsv ++ v ++ imm) = op :=
  (BitVec.extractLsb'_append_eq_of_le (by decide)).trans <|
    (BitVec.extractLsb'_append_eq_of_le (by decide)).trans BitVec.extractLsb'_append_eq_left

theorem rsvField_append : rsvField (op ++ rsv ++ v ++ imm) = rsv :=
  (BitVec.extractLsb'_append_eq_of_le (by decide)).trans <|
    (BitVec.extractLsb'_append_eq_of_le (by decide)).trans BitVec.extractLsb'_append_eq_right

theorem slotField_append : slotField (op ++ rsv ++ v ++ imm) = v :=
  (BitVec.extractLsb'_append_eq_of_le (by decide)).trans BitVec.extractLsb'_append_eq_right

theorem immField_append : immField (op ++ rsv ++ v ++ imm) = imm :=
  BitVec.extractLsb'_append_eq_right

@[simp] theorem opField_commandWord : opField (commandWord op v imm) = op :=
  opField_append op 0 v imm

@[simp] theorem rsvField_commandWord : rsvField (commandWord op v imm) = 0 :=
  rsvField_append op 0 v imm

@[simp] theorem slotField_commandWord : slotField (commandWord op v imm) = v :=
  slotField_append op 0 v imm

@[simp] theorem immField_commandWord : immField (commandWord op v imm) = imm :=
  immField_append op 0 v imm

end

section
variable (a b : BitVec 32)

theorem opField_and : opField (a &&& b) = opField a &&& opField b := BitVec.extractLsb'_and

theorem rsvField_and : rsvField (a &&& b) = rsvField a &&& rsvField b := BitVec.extractLsb'_and

theorem slotField_and : slotField (a &&& b) = slotField a &&& slotField b := BitVec.extractLsb'_and

theorem immField_and : immField (a &&& b) = immField a &&& immField b := BitVec.extractLsb'_and

end

/-- The four fields side by side are the word (rule R71). -/
theorem fields_append (cmd : BitVec 32) :
    opField cmd ++ rsvField cmd ++ slotField cmd ++ immField cmd = cmd := by
  have hop : opField cmd ++ rsvField cmd = cmd.extractLsb' 11 21 :=
    BitVec.extractLsb'_append_extractLsb'_eq_extractLsb' rfl
  have hslot : cmd.extractLsb' 11 21 ++ slotField cmd = cmd.extractLsb' 8 24 :=
    BitVec.extractLsb'_append_extractLsb'_eq_extractLsb' rfl
  have himm : cmd.extractLsb' 8 24 ++ immField cmd = cmd.extractLsb' 0 32 :=
    BitVec.extractLsb'_append_extractLsb'_eq_extractLsb' rfl
  rw [hop, hslot, himm, BitVec.extractLsb'_eq_self]

/-- A word with `RSV` zero is made of its other fields (rule R74). -/
theorem eq_commandWord_of_rsvField {cmd : BitVec 32} (h : rsvField cmd = 0) :
    cmd = commandWord (opField cmd) (slotField cmd) (immField cmd) := by
  conv_lhs => rw [← fields_append cmd, h]
  rfl

/-- The opcodes: a reserved one, or one of the nine of rule R75. -/
theorem opcode_cases (op : BitVec 4) :
    9 ≤ op.toNat ∨ op = 0 ∨ op = 1 ∨ op = 2 ∨ op = 3 ∨ op = 4 ∨ op = 5 ∨ op = 6 ∨ op = 7 ∨ op = 8 := by
  revert op; decide

/-! ### What the command decoder accepts and rejects -/

section
variable {cmd : BitVec 32} {x : Except Reject Instr} {i j : Instr}

@[simp] theorem needSlotZero_eq_ok : needSlotZero cmd x = .ok i ↔ slotField cmd = 0 ∧ x = .ok i := by
  by_cases h : slotField cmd = 0#3 <;> simp [needSlotZero, h]

@[simp] theorem needImmZero_eq_ok : needImmZero cmd x = .ok i ↔ immField cmd = 0 ∧ x = .ok i := by
  by_cases h : immField cmd = 0#8 <;> simp [needImmZero, h]

@[simp] theorem needSlotZero_rejects :
    (∃ e, needSlotZero cmd x = .error e) ↔ slotField cmd ≠ 0 ∨ ∃ e, x = .error e := by
  by_cases h : slotField cmd = 0#3 <;> simp [needSlotZero, h]

@[simp] theorem needImmZero_rejects :
    (∃ e, needImmZero cmd x = .error e) ↔ immField cmd ≠ 0 ∨ ∃ e, x = .error e := by
  by_cases h : immField cmd = 0#8 <;> simp [needImmZero, h]

@[simp] theorem ite_error_eq_ok {c : Prop} [Decidable c] {e : Reject} :
    (if c then .error e else .ok j : Except Reject Instr) = .ok i ↔ ¬c ∧ j = i := by
  by_cases h : c <;> simp [h]

@[simp] theorem ite_error_rejects {c : Prop} [Decidable c] {e : Reject} :
    (∃ e', (if c then .error e else .ok j : Except Reject Instr) = .error e') ↔ c := by
  by_cases h : c <;> simp [h]

end

theorem decodeCommand_reservedBits {cmd : BitVec 32} (data : BitVec 64) (h : rsvField cmd ≠ 0) :
    decodeCommand cmd data = .error .reservedBits := if_pos h

theorem decodeCommand_reservedOpcode {op : BitVec 4} (v : SlotIx) (imm : BitVec 8) (data : BitVec 64)
    (h : 9 ≤ op.toNat) : decodeCommand (commandWord op v imm) data = .error .reservedOpcode := by
  obtain ⟨k, hk⟩ := Nat.exists_eq_add_of_le' h
  simp [decodeCommand, hk]

/-- What each legal command word stands for, beside any data word: the rows of rule R77 with the fields
they leave free. -/
inductive CommandMeaning : BitVec 32 → BitVec 64 → Instr → Prop
  | nop (data : BitVec 64) : CommandMeaning (commandWord 0x0 0 0) data .nop
  | prepare (data : BitVec 64) : CommandMeaning (commandWord 0x1 0 0) data (.prepare data)
  | latch (data : BitVec 64) : CommandMeaning (commandWord 0x2 0 0) data .latch
  | noteon (v : SlotIx) (n : BitVec 8) (data : BitVec 64) :
      CommandMeaning (commandWord 0x3 v n) data (.noteon v n)
  | kill (v : SlotIx) (data : BitVec 64) : CommandMeaning (commandWord 0x4 v 0) data (.kill v)
  | tick (data : BitVec 64) : CommandMeaning (commandWord 0x5 0 0) data .tick
  | read (a : BitVec 8) (data : BitVec 64) : CommandMeaning (commandWord 0x6 0 a) data (.read a)
  | clrerr {m : BitVec 8} (data : BitVec 64) (h : m[7] = false) :
      CommandMeaning (commandWord 0x7 0 m) data (.clrerr m)
  | swreset (data : BitVec 64) : CommandMeaning (commandWord 0x8 0 0) data .swreset

theorem CommandMeaning.decodes {cmd : BitVec 32} {data : BitVec 64} {i : Instr}
    (h : CommandMeaning cmd data i) : decodeCommand cmd data = .ok i := by
  cases h with
  | nop | prepare | latch | tick | swreset => rfl
  | noteon | kill | read => simp [decodeCommand, needSlotZero, needImmZero]
  | clrerr _ hm => simp [decodeCommand, needSlotZero, hm]

theorem commandMeaning_of_decodeCommand {cmd : BitVec 32} {data : BitVec 64} {i : Instr}
    (h : decodeCommand cmd data = .ok i) : CommandMeaning cmd data i := by
  by_cases hrsv : rsvField cmd = 0
  · rw [eq_commandWord_of_rsvField hrsv] at h ⊢
    generalize opField cmd = op, slotField cmd = v, immField cmd = imm at h ⊢
    obtain hop | hop := opcode_cases op
    · rw [decodeCommand_reservedOpcode v imm data hop] at h
      cases h
    · rcases hop with rfl | rfl | rfl | rfl | rfl | rfl | rfl | rfl | rfl
      · obtain ⟨rfl, rfl, rfl⟩ : v = 0 ∧ imm = 0 ∧ .nop = i := by simpa [decodeCommand] using h
        exact .nop data
      · obtain ⟨rfl, rfl, rfl⟩ : v = 0 ∧ imm = 0 ∧ .prepare data = i := by simpa [decodeCommand] using h
        exact .prepare data
      · obtain ⟨rfl, rfl, rfl⟩ : v = 0 ∧ imm = 0 ∧ .latch = i := by simpa [decodeCommand] using h
        exact .latch data
      · obtain rfl : .noteon v imm = i := by simpa [decodeCommand] using h
        exact .noteon v imm data
      · obtain ⟨rfl, rfl⟩ : imm = 0 ∧ .kill v = i := by simpa [decodeCommand] using h
        exact .kill v data
      · obtain ⟨rfl, rfl, rfl⟩ : v = 0 ∧ imm = 0 ∧ .tick = i := by simpa [decodeCommand] using h
        exact .tick data
      · obtain ⟨rfl, rfl⟩ : v = 0 ∧ .read imm = i := by simpa [decodeCommand] using h
        exact .read imm data
      · obtain ⟨rfl, hm, rfl⟩ : v = 0 ∧ imm[7] = false ∧ .clrerr imm = i := by simpa [decodeCommand] using h
        exact .clrerr data hm
      · obtain ⟨rfl, rfl, rfl⟩ : v = 0 ∧ imm = 0 ∧ .swreset = i := by simpa [decodeCommand] using h
        exact .swreset data
  · rw [decodeCommand_reservedBits data hrsv] at h
    cases h

/-! ### Encoding and decoding -/

/-- Settles O1: a command's encoding has the command's meaning; the parameter write and the selector
codes are looked up. -/
theorem decodeOfEncode : Obligations.DecodeOfEncode := by
  intro i hwf
  cases i with
  | nop => exact (CommandMeaning.nop 0).decodes
  | prepare rate => exact (CommandMeaning.prepare rate).decodes
  | latch => exact (CommandMeaning.latch 0).decodes
  | noteon v n => exact (CommandMeaning.noteon v n 0).decodes
  | kill v => exact (CommandMeaning.kill v 0).decodes
  | tick => exact (CommandMeaning.tick 0).decodes
  | read a => exact (CommandMeaning.read a 0).decodes
  | clrerr m => exact (CommandMeaning.clrerr 0 (by simpa [Instr.wellFormed] using hwf)).decodes
  | swreset => exact (CommandMeaning.swreset 0).decodes
  | setwave | sine | saw | square | tri | noise => rfl

theorem CommandMeaning.encodes {cmd : BitVec 32} {data : BitVec 64} {i : Instr}
    (h : CommandMeaning cmd data i) :
    i.wellFormed = true ∧ encode i = .command cmd (if opField cmd = 0x1 then data else 0) := by
  cases h with
  | clrerr _ hm => simp [encode, Instr.wellFormed, hm]
  | _ => simp [encode, Instr.wellFormed]

/-- Settles O2, meaning by meaning. -/
theorem encodeOfDecodedCommand : Obligations.EncodeOfDecodedCommand :=
  fun _ _ _ h => (commandMeaning_of_decodeCommand h).encodes

/-- Settles O6, word by word. -/
theorem knownWordsDecode : Obligations.KnownWordsDecode :=
  ⟨rfl, rfl, rfl, rfl, rfl, rfl, rfl, rfl, rfl, rfl, rfl, rfl, rfl⟩

/-! ### The data word -/

/-- Settles O7: the decoder's only branch that names the data word is that of `OP` 1, and the only meaning
with `OP` 1 is `PREPARE` of the data word. -/
theorem dataWordReadByPrepareOnly : Obligations.DataWordReadByPrepareOnly := by
  constructor
  · intro cmd d d' hop
    unfold decodeCommand
    split
    · rfl
    · split
      case h_2 h => exact absurd (BitVec.eq_of_toNat_eq h) hop
      all_goals rfl
  · intro cmd d i hop h
    cases commandMeaning_of_decodeCommand h with
    | prepare => rfl
    | _ => simp at hop

/-! ### The rows of the opcode table -/

/-- The row of every instruction, dispatched over the families of Laws/TableRow. -/
theorem tableRow_fits_encode (i : Instr) (h : i.wellFormed = true) :
    (tableRow i).fits (encode i).tableBits = true :=
  match i with
  | .nop => Laws.TableRow.nop h
  | .prepare rate => Laws.TableRow.prepare rate h
  | .latch => Laws.TableRow.latch h
  | .noteon v n => Laws.TableRow.noteon v n h
  | .kill v => Laws.TableRow.kill v h
  | .tick => Laws.TableRow.tick h
  | .read a => Laws.TableRow.read a h
  | .clrerr m => Laws.TableRow.clrerr m h
  | .swreset => Laws.TableRow.swreset h
  | .setwave w => Laws.TableRow.setwave w h
  | .sine => Laws.TableRow.sine h
  | .saw => Laws.TableRow.saw h
  | .square => Laws.TableRow.square h
  | .tri => Laws.TableRow.tri h
  | .noise => Laws.TableRow.noise h

theorem CommandMeaning.tableRow_fits {cmd : BitVec 32} {data : BitVec 64} {i : Instr}
    (h : CommandMeaning cmd data i) : cmd.toNat &&& (tableRow i).mask = (tableRow i).pattern := by
  obtain ⟨hwf, henc⟩ := h.encodes
  simpa [henc, Words.tableBits, TableRow.fits] using tableRow_fits_encode i hwf

theorem CommandMeaning.tableRow_mem {cmd : BitVec 32} {data : BitVec 64} {i : Instr}
    (h : CommandMeaning cmd data i) : tableRow i ∈ commandRows := by
  cases h <;> simp [commandRows, tableRow]

/-- A word that matches under a mask of all of `OP` and `RSV`, of `kv` in `V` and of `ki` in `IMM8`. -/
theorem exists_commandWord_of_masked {cmd : BitVec 32} {op : BitVec 4} (kv : SlotIx) (ki : BitVec 8)
    (h : cmd.toNat &&& (BitVec.allOnes 4 ++ BitVec.allOnes 17 ++ kv ++ ki).toNat =
      (commandWord op 0 0).toNat) :
    ∃ v imm, cmd = commandWord op v imm ∧ v &&& kv = 0 ∧ imm &&& ki = 0 := by
  have hword : cmd &&& (BitVec.allOnes 4 ++ BitVec.allOnes 17 ++ kv ++ ki) = commandWord op 0 0 :=
    BitVec.eq_of_toNat_eq h
  have hop := congrArg opField hword
  have hrsv := congrArg rsvField hword
  have hslot := congrArg slotField hword
  have himm := congrArg immField hword
  rw [opField_and, opField_append, opField_commandWord, BitVec.and_allOnes] at hop
  rw [rsvField_and, rsvField_append, rsvField_commandWord, BitVec.and_allOnes] at hrsv
  rw [slotField_and, slotField_append, slotField_commandWord] at hslot
  rw [immField_and, immField_append, immField_commandWord] at himm
  exact ⟨slotField cmd, immField cmd, hop ▸ eq_commandWord_of_rsvField hrsv, hslot, himm⟩

/-- A row whose mask is the whole word matches one word. -/
theorem eq_commandWord_of_fullMask {cmd : BitVec 32} {op : BitVec 4}
    (h : cmd.toNat &&& 0xFFFFFFFF = (commandWord op 0 0).toNat) : cmd = commandWord op 0 0 := by
  obtain ⟨v, imm, rfl, hslot, himm⟩ :=
    exists_commandWord_of_masked (.allOnes 3) (.allOnes 8) h
  rw [BitVec.and_allOnes] at hslot himm
  rw [hslot, himm]

/-- Every row of rule R77 that a word matches gives a meaning of the word. -/
theorem exists_commandMeaning_of_row {cmd : BitVec 32} (data : BitVec 64) {r : TableRow}
    (hr : r ∈ commandRows) (h : cmd.toNat &&& r.mask = r.pattern) :
    ∃ i, CommandMeaning cmd data i ∧ tableRow i = r := by
  simp only [commandRows, List.mem_cons, List.not_mem_nil, or_false] at hr
  rcases hr with rfl | rfl | rfl | rfl | rfl | rfl | rfl | rfl | rfl
  · obtain rfl := eq_commandWord_of_fullMask (op := 0x0) h
    exact ⟨_, .nop data, rfl⟩
  · obtain rfl := eq_commandWord_of_fullMask (op := 0x1) h
    exact ⟨_, .prepare data, rfl⟩
  · obtain rfl := eq_commandWord_of_fullMask (op := 0x2) h
    exact ⟨_, .latch data, rfl⟩
  · obtain ⟨v, n, rfl, -, -⟩ := exists_commandWord_of_masked (op := 0x3) 0 0 h
    exact ⟨_, .noteon v n data, rfl⟩
  · obtain ⟨v, imm, rfl, -, himm⟩ := exists_commandWord_of_masked (op := 0x4) 0 (.allOnes 8) h
    obtain rfl : imm = 0 := BitVec.and_allOnes.symm.trans himm
    exact ⟨_, .kill v data, rfl⟩
  · obtain rfl := eq_commandWord_of_fullMask (op := 0x5) h
    exact ⟨_, .tick data, rfl⟩
  · obtain ⟨v, a, rfl, hslot, -⟩ := exists_commandWord_of_masked (op := 0x6) (.allOnes 3) 0 h
    obtain rfl : v = 0 := BitVec.and_allOnes.symm.trans hslot
    exact ⟨_, .read a data, rfl⟩
  · obtain ⟨v, m, rfl, hslot, himm⟩ := exists_commandWord_of_masked (op := 0x7) (.allOnes 3) 0x80 h
    obtain rfl : v = 0 := BitVec.and_allOnes.symm.trans hslot
    have hm : m[7] = false := by simpa using congrArg (·.getLsbD 7) himm
    exact ⟨_, .clrerr data hm, rfl⟩
  · obtain rfl := eq_commandWord_of_fullMask (op := 0x8) h
    exact ⟨_, .swreset data, rfl⟩

/-- Settles O3: rows and meanings correspond, and a word has one meaning because the decoder is a
function. -/
theorem commandDecodedByTableRow : Obligations.CommandDecodedByTableRow := by
  intro cmd data
  refine ⟨fun i h => ?_, fun r hr h => ?_, fun r hr r' hr' h h' => ?_⟩
  · have hi := commandMeaning_of_decodeCommand h
    exact ⟨hi.tableRow_mem, hi.tableRow_fits⟩
  · obtain ⟨i, hi, hrow⟩ := exists_commandMeaning_of_row data hr h
    exact ⟨i, hi.decodes, hrow⟩
  · obtain ⟨i, hi, rfl⟩ := exists_commandMeaning_of_row data hr h
    obtain ⟨i', hi', rfl⟩ := exists_commandMeaning_of_row data hr' h'
    have hii : Except.ok i = .ok i' := hi.decodes.symm.trans hi'.decodes
    rw [Except.ok.inj hii]

/-! ### Illegal words -/

/-- Settles O4, by the opcode: each branch of the decoder rejects under the conditions of rule R83 on its
own fields. -/
theorem rejectedExactlyWhenIllegal : Obligations.RejectedExactlyWhenIllegal := by
  intro cmd data
  by_cases hrsv : rsvField cmd = 0
  · rw [eq_commandWord_of_rsvField hrsv]
    generalize opField cmd = op, slotField cmd = v, immField cmd = imm
    obtain hop | hop := opcode_cases op
    · rw [decodeCommand_reservedOpcode v imm data hop]
      simp [IllegalWord, hop]
    · rcases hop with rfl | rfl | rfl | rfl | rfl | rfl | rfl | rfl | rfl <;>
        simp [decodeCommand, IllegalWord]
  · rw [decodeCommand_reservedBits data hrsv]
    exact iff_of_true ⟨_, rfl⟩ (.inr (.inl hrsv))

/-- Settles O5: the step rejects the word, and what raising `ERR_ILLEGAL` keeps is read off. -/
theorem illegalWordOnlySetsErrIllegal : Obligations.IllegalWordOnlySetsErrIllegal := by
  intro s cmd data rest hin hill
  obtain ⟨e, he⟩ := (rejectedExactlyWhenIllegal cmd data).2 hill
  exact ⟨_, step_command_illegal hin he, stickyAfter_of_eq (e := .errIllegal) rfl, rfl, rfl,
    fun _ => ⟨rfl, rfl⟩, rfl, rfl, rfl, rfl, rfl, rfl, rfl⟩

/-! ### Parameters of other blocks -/

/-- Settles O10. -/
theorem foreignParameterIgnored : Obligations.ForeignParameterIgnored :=
  fun _ _ _ _ => step_param_foreign

end Sys2Proof.Machine
end

section
/-! SUPPORT. The waveform operations and the selector: the statements O9, O20, O32 to O38 (rules R100 to
R107, R135). -/

namespace Sys2Proof.Machine

/-! ### The waveform operations -/

/-- A waveform operation sets every active slot's output to the waveform's sample and keeps everything
else of the block (rule R101, log 1). -/
theorem exec_wave_effect (w : Wave) (s : State) :
    ∃ t, exec w.instr s = .next t ∧
      (∀ v, (s.slot v).active = true →
        t.slot v = { s.slot v with out := gen hardware w (s.slot v).phase (noiseSample s.noiseCtr v) }) ∧
      (∀ v, (s.slot v).active = false → t.slot v = s.slot v) ∧
      t.sr = s.sr ∧ t.prepared = s.prepared ∧ t.wavePend = s.wavePend ∧ t.waveCur = s.waveCur ∧
      t.sticky = s.sticky ∧ t.outValid = s.outValid ∧ t.rdata = s.rdata :=
  ⟨_, exec_wave w s, fun v h => by simp [h], fun v h => by simp [h], rfl, rfl, rfl, rfl, rfl, rfl, rfl⟩

/-- Settles O32. -/
theorem sineEffect : Obligations.SineEffect := exec_wave_effect .sine

/-- Settles O33. -/
theorem sawEffect : Obligations.SawEffect := exec_wave_effect .saw

/-- Settles O34. -/
theorem squareEffect : Obligations.SquareEffect := exec_wave_effect .square

/-- The triangle with the conversion to binary32 made in each half (rule R105). -/
theorem triSample_eq (p : B64) :
    triSample p =
      if lt64 p Config.pi then rne32 (sub64 (mul64 four64 (div64 p Config.twoPi)) one64)
      else rne32 (sub64 three64 (mul64 four64 (div64 p Config.twoPi))) :=
  apply_ite rne32 _ _ _

/-- Settles O35. -/
theorem triEffect : Obligations.TriEffect := by
  intro s
  obtain ⟨t, ht, hactive, hframe⟩ := exec_wave_effect .tri s
  exact ⟨t, ht, fun v h => by rw [hactive v h, gen, triSample_eq]; rfl, hframe⟩

/-- Settles O36: the sample is a noise draw, which is in the set of rule R106. -/
theorem noiseEffect : Obligations.NoiseEffect := by
  intro s
  obtain ⟨t, ht, hactive, hframe⟩ := exec_wave_effect .noise s
  refine ⟨t, ht, fun v h => ?_, hframe⟩
  obtain ⟨x, hx⟩ := noiseSample_range s.noiseCtr v
  exact ⟨_, x, hactive v h, hx⟩

/-- Settles O9: the word decodes to `TICK`, whose last stage on a prepared block is the waveform
operation. -/
theorem tickStepRunsSelectedWaveform : Obligations.TickStepRunsSelectedWaveform := by
  intro s data rest hin hprep
  rw [step_command_legal hin (CommandMeaning.tick data).decodes, exec_tick,
    State.tick_prepared _ _ (by exact hprep), exec_wave]

/-- Settles O37, from the ranges of the waveforms' samples. -/
theorem generatorInUnitRange : Obligations.GeneratorInUnitRange := by
  intro P w p d x hsine hp hd hlo hhi
  exact inUnit32_gen w (hsine p hp) hp (inUnit32_iff.mpr ⟨x, hd, hlo, hhi.le⟩)

/-- Settles O38, by computing each sample. -/
theorem waveformCornerValues : Obligations.WaveformCornerValues := by
  unfold Obligations.WaveformCornerValues
  decide +kernel

/-! ### The selector -/

theorem sel_nan {p : B32} (h : NanPattern32 p) : sel p = (.sine, true) := by
  have hu : unpack32 p = .nan := of_decide_eq_true ((isNaN32_iff p).mpr h)
  rw [sel, hu]

section
variable {p : B32} {w : ℚ}

theorem sel_of_nonpos (h : value32 p = some w) (hw : w ≤ 0) : sel p = (.sine, decide (w ≠ 0)) := by
  obtain ⟨s, q, hq, rfl, rfl⟩ := value32_eq_some h
  simp only [sel, unpack32_pack32_fin s hq, if_pos hw]

theorem sel_of_four_le (h : value32 p = some w) (hw : 4 ≤ w) : sel p = (.noise, decide (w ≠ 4)) := by
  have hpos : ¬ w ≤ 0 := by linarith
  obtain ⟨s, q, hq, rfl, rfl⟩ := value32_eq_some h
  simp only [sel, unpack32_pack32_fin s hq, if_neg hpos, if_pos hw]

theorem sel_of_between (h : value32 p = some w) (h0 : 0 < w) (h4 : w < 4) :
    sel p = (waveOfInt ⌊w + 1 / 2⌋, decide (w ≠ ⌊w + 1 / 2⌋)) := by
  obtain ⟨s, q, hq, rfl, rfl⟩ := value32_eq_some h
  simp only [sel, unpack32_pack32_fin s hq, if_neg (not_le.mpr h0), if_neg (not_le.mpr h4)]
  rfl

end

/-- The waveform of an integer 0..4 has that integer as its code (rule R80). -/
theorem waveOfInt_code {k : Int} (h0 : 0 ≤ k) (h4 : k ≤ 4) : ((waveOfInt k).code.toNat : Int) = k := by
  obtain rfl | rfl | rfl | rfl | rfl : k = 0 ∨ k = 1 ∨ k = 2 ∨ k = 3 ∨ k = 4 := by omega
  all_goals rfl

/-- Settles O20: between 0 and 4 the code is the floor of the value plus a half. -/
theorem selectorNearestInteger : Obligations.SelectorNearestInteger := by
  refine ⟨fun p => sel_nan, by decide +kernel, by decide +kernel, fun p w h => ⟨?_, ?_, ?_⟩⟩
  · intro hw
    simp [sel_of_nonpos h hw]
  · intro hw
    simp [sel_of_four_le h hw]
  · rintro ⟨h0, h4⟩
    have hcode : ((waveOfInt ⌊w + 1 / 2⌋).code.toNat : ℚ) = ⌊w + 1 / 2⌋ := by
      exact_mod_cast waveOfInt_code (Int.floor_nonneg.mpr (by linarith))
        (Int.floor_le_iff.mpr (by norm_num; linarith))
    have hlo := Int.floor_le (w + 1 / 2)
    have hhi := Int.lt_floor_add_one (w + 1 / 2)
    rw [sel_of_between h h0 h4, hcode, decide_eq_true_iff]
    exact ⟨by linarith, by linarith, Iff.rfl⟩

end Sys2Proof.Machine
end

section
/-! SUPPORT. The default sine encloses the real sine and rounds it, and the statement O47 (rule R102). -/

namespace Sys2Proof.Machine

/-! ### The power series -/

/-- The term of degree `2k+1` of the sine's power series at `x`. -/
def sinTerm (x : ℚ) (k : Nat) : ℚ := (-1) ^ k * x ^ (2 * k + 1) / ((2 * k + 1).factorial : ℚ)

/-- Each term of the series is got from the one before as `sinSeries` gets it. -/
theorem sinTerm_succ (x : ℚ) (k : Nat) :
    sinTerm x (k + 1) = -(sinTerm x k * (x * x)) / (((2 * k + 2) * (2 * k + 3) : Nat) : ℚ) := by
  have hfac : (2 * (k + 1) + 1).factorial = (2 * k + 3) * ((2 * k + 2) * (2 * k + 1).factorial) := rfl
  rw [sinTerm, sinTerm, hfac]
  have : ((2 * k + 1).factorial : ℚ) ≠ 0 := by positivity
  push_cast
  field_simp
  ring

theorem sinSeries_eq_sum (x : ℚ) (n i : Nat) :
    sinSeries (x * x) n (sinTerm x i) i = ∑ k ∈ Finset.range n, sinTerm x (i + k) := by
  induction n generalizing i with
  | zero => rfl
  | succ n ih =>
    rw [sinSeries, ← sinTerm_succ, ih, Finset.sum_range_succ', add_comm]
    simp only [Nat.add_assoc, Nat.add_comm 1, Nat.add_zero]

theorem sinPoly_eq_sum (n : Nat) (x : ℚ) : sinPoly n x = ∑ k ∈ Finset.range n, sinTerm x k := by
  have h0 : sinTerm x 0 = x := by simp [sinTerm]
  simpa [sinPoly, h0] using sinSeries_eq_sum x n 0

/-- The Taylor polynomial of degree `2n` of the real sine at 0 is `sinPoly n`: the terms of even degree
are zero. -/
theorem taylor_sin_eq_sinPoly (n : Nat) (x : ℚ) :
    ∑ k ∈ Finset.range (2 * n + 1), (((k.factorial : ℝ)⁻¹ * (x : ℝ) ^ k) * iteratedDeriv k Real.sin 0) =
      ((sinPoly n x : ℚ) : ℝ) := by
  induction n with
  | zero => simp [sinPoly_eq_sum]
  | succ n ih =>
    have hodd : iteratedDeriv (2 * n + 1) Real.sin 0 = (-1) ^ n := by simp
    have heven : iteratedDeriv (2 * n + 1 + 1) Real.sin 0 = 0 := by simp
    rw [show 2 * (n + 1) + 1 = 2 * n + 1 + 1 + 1 by ring, Finset.sum_range_succ, Finset.sum_range_succ, ih,
      hodd, heven, sinPoly_eq_sum, sinPoly_eq_sum, Finset.sum_range_succ, sinTerm]
    push_cast
    ring

/-- Taylor's theorem for the sine: `sinPoly n` leaves out at most `sinRest n`. -/
theorem abs_sin_sub_sinPoly_le (n : Nat) (x : ℚ) :
    |Real.sin x - (sinPoly n x : ℚ)| ≤ ((sinRest n x : ℚ) : ℝ) := by
  rcases eq_or_ne (x : ℝ) 0 with hx | hx
  · rw [Rat.cast_eq_zero] at hx
    subst hx
    simp [sinPoly_eq_sum, sinTerm, sinRest]
  obtain ⟨y, -, hy⟩ := taylor_mean_remainder_lagrange_iteratedDeriv (n := 2 * n) hx.symm
    Real.contDiff_sin.contDiffOn
  have hcoeff : ∀ k, iteratedDerivWithin k Real.sin (Set.uIcc 0 (x : ℝ)) 0 = iteratedDeriv k Real.sin 0 :=
    fun k => iteratedDerivWithin_eq_iteratedDeriv (uniqueDiffOn_uIcc hx.symm)
      Real.contDiff_sin.contDiffAt Set.left_mem_uIcc
  rw [taylor_within_apply] at hy
  simp only [hcoeff, sub_zero, smul_eq_mul, taylor_sin_eq_sinPoly] at hy
  rw [hy, abs_div, abs_mul, abs_pow, Nat.abs_cast, sinRest]
  push_cast
  gcongr
  exact mul_le_of_le_one_left (by positivity) (Real.abs_iteratedDeriv_sin_le_one _ _)

theorem sinLo_le_sin (n : Nat) (x : ℚ) : ((sinLo n x : ℚ) : ℝ) ≤ Real.sin x := by
  have h := (abs_le.mp (abs_sin_sub_sinPoly_le n x)).1
  rw [sinLo, Rat.cast_max]
  push_cast
  exact max_le (Real.neg_one_le_sin _) (by linarith)

theorem sin_le_sinHi (n : Nat) (x : ℚ) : Real.sin x ≤ ((sinHi n x : ℚ) : ℝ) := by
  have h := (abs_le.mp (abs_sin_sub_sinPoly_le n x)).2
  rw [sinHi, Rat.cast_min]
  push_cast
  exact le_min (Real.sin_le_one _) (by linarith)

/-! ### Rounding an enclosure -/

/-- What is at least as near to both ends of an interval as another point is at least as near to every
point of it. -/
theorem abs_sub_le_of_between {v w lo z hi : ℝ} (hlo : |v - lo| ≤ |w - lo|) (hhi : |v - hi| ≤ |w - hi|)
    (hlz : lo ≤ z) (hzh : z ≤ hi) : |v - z| ≤ |w - z| := by
  rw [← sq_le_sq] at hlo hhi ⊢
  rcases le_total w v with h | h
  · nlinarith [mul_nonneg (sub_nonneg.mpr h) (sub_nonneg.mpr hlz)]
  · nlinarith [mul_nonneg (sub_nonneg.mpr h) (sub_nonneg.mpr hzh)]

/-- A datum that both ends of an interval round to is nearest to every real in it. -/
theorem Rounds64.nearestTo_between {d : B64} {lo hi v : ℚ} {z : ℝ} (hlo : Rounds64 d lo)
    (hhi : Rounds64 d hi) (hv : value64 d = some v) (hlz : (lo : ℝ) ≤ z) (hzh : z ≤ hi) :
    NearestTo d z := by
  refine ⟨v, hv, fun y w hw => abs_sub_le_of_between ?_ ?_ hlz hzh⟩
  · exact_mod_cast hlo.nearest hv hw
  · exact_mod_cast hhi.nearest hv hw

/-- A decided rounding is that of both bounds of some number of terms. -/
theorem sinDecidedBy_eq_some {x : ℚ} {r : B64} {ns : List Nat} (h : sinDecidedBy x ns = some r) :
    ∃ n, r = round64 (sinLo n x) ∧ r = round64 (sinHi n x) := by
  induction ns with
  | nil => cases h
  | cons n ns ih =>
    unfold sinDecidedBy at h
    split at h
    · rename_i r' hat
      obtain rfl : r' = r := Option.some.inj h
      unfold sinDecidedAt at hat
      split_ifs at hat with heq
      obtain rfl := Option.some.inj hat
      exact ⟨n, rfl, heq⟩
    · exact ih h

theorem sin64Default_of_decided {x r : B64} {v : ℚ} (hx : value64 x = some v)
    (h : sinDecided v = some r) : sin64Default x = r := by
  simp only [sin64Default, hx, h, Option.getD_some]

/-- Settles O47: the real sine lies between the bounds, and both round to the decided datum. -/
theorem sineNearest : Obligations.SineNearest := by
  intro x r v hx h
  obtain ⟨n, hlo, hhi⟩ := sinDecidedBy_eq_some h
  obtain ⟨w, hw, -⟩ := inUnit64_iff.mp (inUnit64_of_sinDecidedBy h)
  refine ⟨sin64Default_of_decided hx h, Rounds64.nearestTo_between ?_ ?_ hw (sinLo_le_sin n v)
    (sin_le_sinHi n v)⟩
  · rw [hlo]; exact rounds64_round64 _
  · rw [hhi]; exact rounds64_round64 _

end Sys2Proof.Machine
end

section
/-! SUPPORT. The hardware's note table and sine have the properties of admissible parameters, and the
statement O45 (rules R102, R132). -/

namespace Sys2Proof.Machine

/-! ### The order of the table -/

/-- A pattern without a sign bit and below infinity's is a finite datum, its value that of the pattern. -/
theorem value64_of_toNat_lt {x : B64} (h : x.toNat < binary64.infPat) :
    value64 x = some (binary64.magnitude x.toNat) := by
  have hx : pack64 false x.toNat = x := by simp [pack64]
  exact (congrArg value64 hx).symm.trans (value64_pack64 false h)

/-- Finite data without a sign bit are ordered as their patterns are. -/
theorem lt64_of_toNat_lt {x y : B64} (hlt : x.toNat < y.toNat) (hy : y.toNat < binary64.infPat) :
    lt64 x y = true := by
  have hx := hlt.trans hy
  rw [lt64_fin (value64_of_toNat_lt hx) (value64_of_toNat_lt hy)]
  exact decide_eq_true ((binary64.magnitude_lt_iff hx.le hy.le).mpr hlt)

theorem etTable_pairwise : etTable.Pairwise (fun x y => x.toNat < y.toNat) := by decide +kernel

theorem etHzDefault_eq_getElem (n : Note) : etHzDefault n = etTable[n.toNat]'n.isLt :=
  List.getD_eq_getElem _ _ _

theorem etHzDefault_toNat_lt {m n : Note} (h : m < n) : (etHzDefault m).toNat < (etHzDefault n).toNat := by
  rw [etHzDefault_eq_getElem, etHzDefault_eq_getElem]
  exact List.pairwise_iff_getElem.mp etTable_pairwise _ _ _ _ h

theorem etHzDefault_finite (n : Note) : (etHzDefault n).toNat < binary64.infPat := by
  revert n; decide +kernel

/-! ### The table beside the equal-tempered frequencies -/

/-- The equal-tempered frequency of a note (rule R132). -/
noncomputable def pitch (n : Note) : ℝ := 440 * (2 : ℝ) ^ (((n.toNat : ℝ) - 69) / 12)

theorem pitch_pow_twelve (n : Note) : pitch n ^ 12 * 2 ^ 69 = 440 ^ 12 * 2 ^ n.toNat := by
  rw [pitch, mul_pow, ← Real.rpow_mul_natCast (by norm_num)]
  push_cast
  rw [div_mul_cancel₀ _ (by norm_num), Real.rpow_sub (by norm_num), Real.rpow_natCast]
  norm_num
  ring

theorem pitch_nonneg (n : Note) : 0 ≤ pitch n := by unfold pitch; positivity

/-- A rational is at most a note's frequency when its twelfth power is at most the frequency's. -/
theorem cast_le_pitch {q : ℚ} {n : Note} (h : q ^ 12 * 2 ^ 69 ≤ 440 ^ 12 * 2 ^ n.toNat) :
    (q : ℝ) ≤ pitch n := by
  refine le_of_pow_le_pow_left₀ (n := 12) (by norm_num) (pitch_nonneg n) ?_
  refine le_of_mul_le_mul_right ?_ (by positivity : (0 : ℝ) < 2 ^ 69)
  rw [pitch_pow_twelve]
  exact_mod_cast h

theorem pitch_le_cast {q : ℚ} {n : Note} (hq : 0 ≤ q) (h : 440 ^ 12 * 2 ^ n.toNat ≤ q ^ 12 * 2 ^ 69) :
    pitch n ≤ q := by
  refine le_of_pow_le_pow_left₀ (n := 12) (by norm_num) (by exact_mod_cast hq) ?_
  refine le_of_mul_le_mul_right ?_ (by positivity : (0 : ℝ) < 2 ^ 69)
  rw [pitch_pow_twelve]
  exact_mod_cast h

/-- Whether a note's frequency lies within `d` of `v`, by the twelfth powers of the two ends. -/
def PitchWithin (n : Note) (v d : ℚ) : Prop :=
  0 ≤ v + d ∧ (v - d) ^ 12 * 2 ^ 69 ≤ 440 ^ 12 * 2 ^ n.toNat ∧
    440 ^ 12 * 2 ^ n.toNat ≤ (v + d) ^ 12 * 2 ^ 69

theorem PitchWithin.abs_sub_le {n : Note} {v d : ℚ} (h : PitchWithin n v d) :
    |(v : ℝ) - pitch n| ≤ d := by
  obtain ⟨hpos, hlo, hhi⟩ := h
  have h1 := cast_le_pitch hlo
  have h2 := pitch_le_cast hpos hhi
  push_cast at h1 h2
  exact abs_le.mpr ⟨by linarith, by linarith⟩

theorem etHzDefault_pitchWithin (n : Note) :
    PitchWithin n (binary64.magnitude (etHzDefault n).toNat) (2 * ulp64 (etHzDefault n)) := by
  unfold PitchWithin
  revert n
  decide +kernel

/-! ### The properties -/

theorem sin64Default_zero : sin64Default 0 = 0 := by decide +kernel

/-- Settles O45: E1 is the table's entry and E2 its order; E3 compares twelfth powers; S1 is the range of
the default sine, and S2 its value at +0. -/
theorem hardwareParametersAdmissible : Obligations.HardwareParametersAdmissible where
  e1 := rfl
  e2Positive n := by
    obtain ⟨v, hv, hpos, -⟩ := etHzDefault_range n
    exact ⟨v, hv, hpos⟩
  e2Increasing m n h := lt64_of_toNat_lt (etHzDefault_toNat_lt h) (etHzDefault_finite n)
  e3 n := by
    have hwithin := (etHzDefault_pitchWithin n).abs_sub_le
    rw [Rat.cast_mul, Rat.cast_ofNat] at hwithin
    exact ⟨_, value64_of_toNat_lt (etHzDefault_finite n), hwithin⟩
  s1 x _ := inUnit64_sin64Default x
  s2 := sin64Default_zero

end Sys2Proof.Machine
end

section
/-! SUPPORT. The voice commands: what NOTEON, KILL and TICK do to a slot, and the statements O27 to O31
(rules R133 to R136). -/

namespace Sys2Proof.Machine

/-! ### NOTEON and KILL -/

theorem clampNote_toNat (n : BitVec 8) : (clampNote n).toNat = min n.toNat 127 := by
  unfold clampNote
  split_ifs with h
  · rw [min_eq_right h.le]; rfl
  · rw [BitVec.toNat_setWidth, min_eq_left (by omega), Nat.mod_eq_of_lt (by omega)]

/-- The slot named by NOTEON, after it (rule R133). -/
theorem State.noteOn_slot_self (s : State) (P : Config.Params) (v : SlotIx) (n : BitVec 8) :
    (s.noteOn P v n).slot v =
      { s.slot v with
        note := clampNote n
        freq := P.etHz (clampNote n)
        inc := s.incFor (P.etHz (clampNote n))
        phase := 0
        active := true } := by
  rw [State.noteOn_slot, if_pos rfl]

/-- Settles O27: the slot named by NOTEON and the other slots, read off the state after it. -/
theorem noteonEffect : Obligations.NoteonEffect := by
  intro v n s
  refine ⟨_, exec_noteon v n s, stickyAfter_of_eq (e := .infNoteClamp) (s.noteOn_sticky hardware v n), ?_⟩
  rw [State.noteOn_slot_self]
  refine ⟨clampNote_toNat n, rfl, fun hprep => ?_, fun hprep => ?_, rfl, rfl, rfl, fun u hu => ?_,
    by simp, by simp, by simp, by simp, by simp, by simp⟩
  · simp [State.incFor, hprep, hardware]
  · simp [State.incFor, hprep]
  · rw [State.noteOn_slot, if_neg hu]

/-- Settles O28: KILL changes the active bit of one slot. -/
theorem killEffect : Obligations.KillEffect := by
  intro v s
  refine ⟨_, exec_kill v s, ?_⟩
  rw [State.modifySlot_slot, if_pos rfl]
  exact ⟨rfl, rfl, rfl, rfl, rfl, rfl, fun u hu => by rw [State.modifySlot_slot, if_neg hu], rfl, rfl, rfl,
    rfl, rfl, rfl, rfl⟩

/-! ### TICK -/

section
variable {s : State} (P : Config.Params) {v : SlotIx} (hs : s.prepared = true)
include hs

/-- An active lane of `TICK` advances, wraps and generates from the new phase (rule R135). -/
theorem State.tick_slot_active (hv : (s.slot v).active = true) :
    (s.tick P).slot v =
      { s.slot v with
        phase := wrap (add64 (s.slot v).phase (s.slot v).inc)
        out := gen P s.waveCur (wrap (add64 (s.slot v).phase (s.slot v).inc))
          (noiseSample s.noiseCtr v) } := by
  simp [State.tick_prepared s P hs, advanceLane, hv]

/-- An inactive lane of `TICK` gives `+0` (rule R135). -/
theorem State.tick_slot_inactive (hv : (s.slot v).active = false) :
    (s.tick P).slot v = { s.slot v with out := 0 } := by
  simp [State.tick_prepared s P hs, advanceLane, hv]

/-- `out_valid` shows the lanes that are active (rules R34, R135). -/
theorem State.tick_outValid_bit : (s.tick P).outValid.getLsbD v.toNat = (s.slot v).active := by
  rw [State.tick_prepared s P hs, State.generate_outValid, State.advance_outValid, State.activeMask_bit]

end

/-- Settles O29: unprepared, `TICK` raises `ERR_UNPREP`; prepared, each lane is an active or an inactive
one, and what `TICK` leaves alone is read off. -/
theorem tickEffect : Obligations.TickEffect := by
  intro s
  refine ⟨fun hs => ⟨_, exec_tick s, ?_⟩, fun hs =>
    ⟨_, exec_tick s, fun v hv => ?active, fun v hv => ?inactive, fun v => ?kept, ?_⟩⟩
  · rw [State.tick_unprepared s _ hs]
    exact ⟨stickyAfter_of_eq (e := .errUnprep) (c := true) rfl, rfl, fun _ => ⟨rfl, rfl⟩, rfl, rfl, rfl,
      rfl, rfl⟩
  case active =>
    obtain ⟨x, hx, hlo, hhi⟩ := noiseSample_range s.noiseCtr v
    rw [State.tick_outValid_bit _ hs, State.tick_slot_active _ hs hv]
    exact ⟨rfl, ⟨_, x, hx, hlo, hhi, rfl⟩, hv⟩
  case inactive =>
    rw [State.tick_outValid_bit _ hs, State.tick_slot_inactive _ hs hv]
    exact ⟨rfl, rfl, hv⟩
  case kept =>
    cases hv : (s.slot v).active
    · rw [State.outPort, State.tick_slot_inactive _ hs hv]
      exact ⟨hv, rfl, rfl, rfl, rfl⟩
    · rw [State.outPort, State.tick_slot_active _ hs hv]
      exact ⟨hv, rfl, rfl, rfl, rfl⟩
  · rw [State.tick_prepared s _ hs]
    exact ⟨rfl, hs, rfl, rfl, rfl, rfl⟩

/-- Settles O30: a lane's slot and bit after `TICK` are given by its own slot, `WAVE_CUR` and the draw. -/
theorem tickLanesIndependent : Obligations.TickLanesIndependent := by
  intro v s s' t t' hs hs' hwave hdraw hslot ht ht'
  cases (exec_tick s).symm.trans ht
  cases (exec_tick s').symm.trans ht'
  rw [State.tick_outValid_bit _ hs, State.tick_outValid_bit _ hs', hslot]
  refine ⟨?_, rfl⟩
  cases hv : (s'.slot v).active
  · rw [State.tick_slot_inactive _ hs (hslot ▸ hv), State.tick_slot_inactive _ hs' hv, hslot]
  · rw [State.tick_slot_active _ hs (hslot ▸ hv), State.tick_slot_active _ hs' hv, hslot, hwave, hdraw]

/-- `+0` added to a datum that is not negative gives that datum. -/
theorem zero_add64 {x : B64} (h : nonNegative64 x = true) : add64 0 x = x := by
  obtain ⟨m, hm⟩ := nonNegative64_iff.mp h
  obtain ⟨p, hp, rfl, rfl⟩ := unpack64_eq_fin hm
  rw [add64_fin (show unpack64 0 = .fin false 0 by decide +kernel) hm]
  simp only [signed, Bool.false_eq_true, if_false, zero_add, Bool.and_self]
  split_ifs with hzero
  · rcases Nat.eq_zero_or_pos p with rfl | hpos
    · rfl
    · exact absurd hzero (binary64.magnitude_pos hpos).ne'
  · exact value64_round64_of_magnitude hp

/-- Settles O31: NOTEON leaves the phase at `+0`, and the sum of `+0` and the increment, which the
invariants keep from being negative, is the increment. -/
theorem firstSampleAfterNoteon : Obligations.FirstSampleAfterNoteon := by
  intro v n s t u hinv hs ht hu
  cases (exec_noteon v n s).symm.trans ht
  cases (exec_tick _).symm.trans hu
  have hslot := s.noteOn_slot_self hardware v n
  have hphase : ((s.noteOn hardware v n).slot v).phase = 0 := by rw [hslot]
  have hinc := ((hinv.noteOn usable_hardware v n).slots v).incNonNegative
  obtain ⟨x, hx, hlo, hhi⟩ := noiseSample_range (s.noteOn hardware v n).noiseCtr v
  rw [State.tick_slot_active _ (by simpa using hs) (by rw [hslot]), hphase, zero_add64 hinc,
    State.noteOn_waveCur]
  exact ⟨rfl, _, x, hx, hlo, hhi, rfl⟩

end Sys2Proof.Machine
end

section
/-! SUPPORT. The exact remainder that `wrap` gives, and the statement O42 (rules R15, R131). -/

namespace Sys2Proof.Machine

/-- A mantissa counted in any of the format's steps is a value of the format: one that does not fill the
mantissa is counted in smaller steps. -/
theorem Fmt.exists_magnitude_eq (F : Fmt) {M E : Nat} (hM : M ≤ 2 ^ (F.fracBits + 1)) :
    ∃ p ≤ (E + 2) * 2 ^ F.fracBits, F.magnitude p = M * 2 ^ (F.qMin + (E : Int)) := by
  have hpow : 2 ^ (F.fracBits + 1) = 2 * 2 ^ F.fracBits := by ring
  induction E generalizing M with
  | zero => exact ⟨_, by omega, F.magnitude_of_parts 0 M hM (.inl rfl)⟩
  | succ E ih =>
    rcases Nat.lt_or_ge M (2 ^ F.fracBits) with hlt | hge
    · obtain ⟨p, hp, hv⟩ := ih (M := 2 * M) (by omega)
      refine ⟨p, hp.trans (Nat.mul_le_mul_right _ (by omega)), ?_⟩
      rw [hv, Nat.cast_succ, ← add_assoc, zpow_add_one₀ two_ne_zero]
      push_cast
      ring
    · exact ⟨_, by linarith, F.magnitude_of_parts (E + 1) M hM (.inr hge)⟩

theorem twoPiValue_pos : 0 < twoPiValue := by norm_num [twoPiValue]

/-- The exact remainder by `TWO_PI` of a finite magnitude is a value of the format: below `TWO_PI` the
magnitude itself, and otherwise a count of fewer than 2^53 steps of 2^-50. -/
theorem remainder_is_magnitude {p : Nat} (hp : p < binary64.infPat) :
    ∃ k < binary64.infPat,
      binary64.magnitude p - ⌊binary64.magnitude p / twoPiValue⌋ * twoPiValue = binary64.magnitude k := by
  rcases lt_or_ge (binary64.magnitude p) twoPiValue with hlt | hge
  · have hzero : ⌊binary64.magnitude p / twoPiValue⌋ = 0 :=
      Int.floor_eq_zero_iff.mpr ⟨div_nonneg (binary64.magnitude_nonneg p) twoPiValue_pos.le,
        (div_lt_one twoPiValue_pos).mpr hlt⟩
    exact ⟨p, hp, by rw [hzero, Int.cast_zero, zero_mul, sub_zero]⟩
  · obtain ⟨n, hn⟩ := magnitude_eq_steps (le_trans (by norm_num [twoPiValue]) hge)
    have hlo := Int.sub_floor_div_mul_nonneg (binary64.magnitude p) twoPiValue_pos
    have hhi := Int.sub_floor_div_mul_lt (binary64.magnitude p) twoPiValue_pos
    set c := ⌊binary64.magnitude p / twoPiValue⌋
    have hrem : binary64.magnitude p - c * twoPiValue =
        ((n - c * 7074237752028440 : Int) : ℚ) / 2 ^ 50 := by
      rw [hn, twoPiValue]; push_cast; ring
    rw [hrem] at hlo hhi ⊢
    have hnonneg : 0 ≤ n - c * 7074237752028440 := by
      rw [le_div_iff₀ (by positivity), zero_mul] at hlo
      exact_mod_cast hlo
    obtain ⟨M, hM⟩ := Int.eq_ofNat_of_zero_le hnonneg
    rw [hM, Int.cast_natCast] at hhi ⊢
    have hlt : (M : ℚ) < 7074237752028440 := by
      rw [div_lt_iff₀ (by positivity)] at hhi
      exact hhi.trans_eq (by norm_num [twoPiValue])
    have hlt' : M < 7074237752028440 := by exact_mod_cast hlt
    obtain ⟨k, hk, hv⟩ := binary64.exists_magnitude_eq (M := M) (E := 1024) (show M ≤ 2 ^ 53 by omega)
    refine ⟨k, hk.trans_lt (by decide), ?_⟩
    rw [hv, show binary64.qMin + ((1024 : Nat) : Int) = -50 by decide, zpow_neg, zpow_ofNat,
      div_eq_mul_inv]

/-- A value that is not negative is the magnitude of a finite pattern, which is the datum but for its
sign. -/
theorem magnitude_of_value64_nonneg {s : B64} {v : ℚ} (hs : value64 s = some v) (hv : 0 ≤ v) :
    ∃ neg, ∃ p < binary64.infPat, s = pack64 neg p ∧ v = binary64.magnitude p := by
  obtain ⟨neg, p, hp, hpack, hvp⟩ := value64_eq_some hs
  exact ⟨neg, p, hp, hpack, by rw [← abs_of_nonneg hv, hvp, abs_signed neg (binary64.magnitude_nonneg p)]⟩

section
variable {s : B64} {v : ℚ} (hs : value64 s = some v) (hv : 0 ≤ v)
include hs hv

theorem wrap_eq_round64 : wrap s = round64 (v - ⌊v / twoPiValue⌋ * twoPiValue) := by
  simp only [wrap, hs, if_pos hv]
  rfl

/-- The rounding in `wrap` changes nothing (rule R131). -/
theorem value64_wrap : value64 (wrap s) = some (v - ⌊v / twoPiValue⌋ * twoPiValue) := by
  rw [wrap_eq_round64 hs hv]
  obtain ⟨-, p, hp, -, rfl⟩ := magnitude_of_value64_nonneg hs hv
  obtain ⟨k, hk, hrem⟩ := remainder_is_magnitude hp
  rw [hrem, value64_round64_of_magnitude hk, value64_pack64 false hk]
  rfl

/-- A sum below `TWO_PI` with a `+` sign is its own remainder (rule R131). -/
theorem wrap_of_lt_twoPi (hlt : v < twoPiValue) (hsign : s.msb = false) : wrap s = s := by
  have hzero : ⌊v / twoPiValue⌋ = 0 :=
    Int.floor_eq_zero_iff.mpr ⟨div_nonneg hv twoPiValue_pos.le, (div_lt_one twoPiValue_pos).mpr hlt⟩
  rw [wrap_eq_round64 hs hv, hzero, Int.cast_zero, zero_mul, sub_zero]
  obtain ⟨neg, p, hp, rfl, rfl⟩ := magnitude_of_value64_nonneg hs hv
  rw [msb_pack64 neg hp.le] at hsign
  rw [value64_round64_of_magnitude hp, hsign]

/-- From `TWO_PI` to below twice it, the remainder is the difference (rule R131). -/
theorem wrap_of_lt_twice_twoPi (hlo : twoPiValue ≤ v) (hhi : v < 2 * twoPiValue) :
    wrap s = sub64 s Config.twoPi := by
  have hone : ⌊v / twoPiValue⌋ = 1 := by
    rw [Int.floor_eq_iff, le_div_iff₀ twoPiValue_pos, div_lt_iff₀ twoPiValue_pos]
    constructor <;> norm_num <;> linarith
  have hneg : unpack64 (neg64 Config.twoPi) = .fin true twoPiValue := by decide +kernel
  rw [wrap_eq_round64 hs hv, hone, sub64,
    add64_fin (unpack64_of_value64_pos hs (twoPiValue_pos.trans_le hlo)) hneg]
  simp only [signed, Bool.false_eq_true, if_false, if_true, Int.cast_one, one_mul, ← sub_eq_add_neg]
  split_ifs with hzero
  · rw [hzero]; decide +kernel
  · rfl

end

/-- Settles O42, from the value of `wrap` and its two special cases. -/
theorem wrapIsExactRemainder : Obligations.WrapIsExactRemainder :=
  ⟨value64_twoPi, fun _ _ hs hv => ⟨value64_wrap hs hv, phaseInRange_wrap hs hv,
    wrap_of_lt_twoPi hs hv, wrap_of_lt_twice_twoPi hs hv⟩⟩

end Sys2Proof.Machine
end

section
/-! SUPPORT. The bounds of the increment, and the statements O43 and O44 (rules R130, R132, R135). -/

namespace Sys2Proof.Machine

/-! ### The greatest increment -/

theorem unpack64_of_toNat_lt {x : B64} (h : x.toNat < binary64.infPat) :
    unpack64 x = .fin false (binary64.magnitude x.toNat) := by
  have hx : pack64 false x.toNat = x := by simp [pack64]
  exact (congrArg unpack64 hx).symm.trans (unpack64_pack64_fin false h)

/-- No frequency the block can hold is above that of note 127 (rules R21, R132). -/
theorem frequency_toNat_le {f : B64} (hf : f = 0 ∨ ∃ n, f = etHzDefault n) :
    f.toNat ≤ (etHzDefault 127).toNat := by
  rcases hf with rfl | ⟨n, rfl⟩
  · exact Nat.zero_le _
  · rcases eq_or_ne n 127 with rfl | hne
    · exact le_rfl
    · exact (etHzDefault_toNat_lt (by bv_omega)).le

/-- The product of `TWO_PI` and the frequency of note 127, rounded. -/
theorem roundMag_twoPi_mul_note127 :
    binary64.roundMag (twoPiValue * binary64.magnitude (etHzDefault 127).toNat) = 0x40F33DF5BDD21929 := by
  decide +kernel

/-- The increment of a frequency up to that of note 127 at a rate of at least 1 hertz is a `+` datum up to
the rounded product for note 127: rounding respects the order, and the quotient is at most the product
(rule R130). -/
theorem incr_bounded {f sr : B64} {y : ℚ} (hf : f.toNat ≤ (etHzDefault 127).toNat)
    (hsr : value64 sr = some y) (hy : 1 ≤ y) :
    ∃ p ≤ 0x40F33DF5BDD21929, incr f sr = pack64 false p := by
  have h127 := etHzDefault_finite 127
  have htwoPi := unpack64_of_value64_pos value64_twoPi twoPiValue_pos
  have hprod : binary64.roundMag (twoPiValue * binary64.magnitude f.toNat) ≤ 0x40F33DF5BDD21929 := by
    rw [← roundMag_twoPi_mul_note127]
    have hmag := (binary64.magnitude_le_iff (hf.trans h127.le) h127.le).mpr hf
    exact binary64.roundMag_mono (mul_le_mul_of_nonneg_left hmag twoPiValue_pos.le)
  set p := binary64.roundMag (twoPiValue * binary64.magnitude f.toNat) with hp
  have hfin : p < binary64.infPat := hprod.trans_lt (by rw [binary64_infPat]; norm_num)
  refine ⟨binary64.roundMag (binary64.magnitude p / y), ?_, ?_⟩
  · exact (binary64.roundMag_le (div_le_self (binary64.magnitude_nonneg p) hy)).trans hprod
  · rw [incr, mul64_fin htwoPi (unpack64_of_toNat_lt (hf.trans_lt h127)), ← hp,
      div64_fin (unpack64_pack64_fin _ hfin) (unpack64_of_value64_pos hsr (by linarith)) (by linarith)]
    rfl

/-- Settles O43: the definition, the bound, and the value at note 127 and 1.0 hertz. -/
theorem incrementBounded : Obligations.IncrementBounded := by
  refine ⟨fun _ _ => rfl, fun f sr hf hsr => ?_, by decide +kernel⟩
  obtain ⟨y, hy, h1, -⟩ := rateInRange_iff.mp hsr
  obtain ⟨p, hp, hincr⟩ := incr_bounded (frequency_toNat_le hf) hy h1
  have hfin : p < binary64.infPat := hp.trans_lt (by rw [binary64_infPat]; norm_num)
  rw [hincr, pack64_toNat false (by omega)]
  exact ⟨nonNegative64_iff.mpr ⟨_, unpack64_pack64_fin false hfin⟩, hp⟩

/-! ### Increments above zero -/

theorem eight_le_etHzDefault {n : Note} {x : ℚ} (h : value64 (etHzDefault n) = some x) : 8 ≤ x := by
  have hall : ∀ n : Note, (value64 (etHzDefault n)).all (fun x => decide (8 ≤ x)) = true := by
    decide +kernel
  simpa [h] using hall n

/-- The increment of a note at a rate in range is above 0: the product is at least 1, and its quotient by
at most 2^20 at least 2^-20, both of them data that rounding does not go below. -/
theorem value64_incr_pos {n : Note} {sr : B64} (hsr : rateInRange sr = true) :
    ∃ z, value64 (incr (etHzDefault n) sr) = some z ∧ 0 < z := by
  obtain ⟨x, hx, -, hx1⟩ := etHzDefault_range n
  have hx0 := eight_le_etHzDefault hx
  obtain ⟨y, hy, hy0, hy1⟩ := rateInRange_iff.mp hsr
  have hmax : value64 0x4100000000000000 = some 131072 := by decide +kernel
  obtain ⟨m, hm, hm0, hm1⟩ := (mul64_rounds value64_twoPi hx).value_between value64_one64 hmax
    (by norm_num [twoPiValue]; linarith) (by norm_num [twoPiValue]; linarith)
  obtain ⟨z, hz, hz0, -⟩ := (div64_rounds hm hy (by linarith)).value_between
    (show value64 0x3EB0000000000000 = some (1 / 1048576) by decide +kernel) hmax
    (div_le_div₀ (by linarith) hm0 (by linarith) hy1) ((div_le_self (by linarith) hy0).trans hm1)
  exact ⟨z, hz, lt_of_lt_of_le (by norm_num) hz0⟩

/-- Settles O44: by the invariants an active slot's increment is that of its note at a rate in range. -/
theorem activeIncrementPositive : Obligations.ActiveIncrementPositive := by
  intro s v hinv hs hv
  have hgood := hinv.slots v
  rw [hgood.inc, State.incFor, if_pos hs, hgood.active hv]
  exact value64_incr_pos (hinv.rate_of_prepared hs)

end Sys2Proof.Machine
end

section
/-! SUPPORT. The note table is correctly rounded, and the statement O46 (rule R132). -/

namespace Sys2Proof.Machine

/-- Each note's frequency lies within 31/64 of a unit in the last place of the table's entry. -/
theorem etHzDefault_pitchWithin_half (n : Note) :
    PitchWithin n (binary64.magnitude (etHzDefault n).toNat) (31 / 64 * ulp64 (etHzDefault n)) := by
  unfold PitchWithin
  revert n
  decide +kernel

/-- What lies within 31/64 of a unit in the last place of an entry rounds to it, at either end. -/
theorem round64_around_etHzDefault (n : Note) :
    round64 (binary64.magnitude (etHzDefault n).toNat - 31 / 64 * ulp64 (etHzDefault n)) = etHzDefault n ∧
    round64 (binary64.magnitude (etHzDefault n).toNat + 31 / 64 * ulp64 (etHzDefault n)) = etHzDefault n := by
  revert n
  decide +kernel

/-- The entries of the next octave have the same fraction and the next exponent (rule R132). -/
theorem etHzDefault_octave : ∀ n : Note, n.toNat + 12 < 128 →
    (etHzDefault (n + 12)).toNat = (etHzDefault n).toNat + 2 ^ 52 := by
  decide +kernel

/-- Settles O46: each note's frequency lies between two rationals that round to the entry. -/
theorem noteTableNearest : Obligations.NoteTableNearest := by
  refine ⟨fun n => ?_, etHzDefault_octave⟩
  obtain ⟨hpos, hlo, hhi⟩ := etHzDefault_pitchWithin_half n
  obtain ⟨hroundLo, hroundHi⟩ := round64_around_etHzDefault n
  have hrounds := rounds64_round64 (binary64.magnitude (etHzDefault n).toNat - 31 / 64 * ulp64 (etHzDefault n))
  have hrounds' := rounds64_round64 (binary64.magnitude (etHzDefault n).toNat + 31 / 64 * ulp64 (etHzDefault n))
  rw [hroundLo] at hrounds
  rw [hroundHi] at hrounds'
  exact hrounds.nearestTo_between hrounds' (value64_of_toNat_lt (etHzDefault_finite n)) (cast_le_pitch hlo)
    (pitch_le_cast hpos hhi)

end Sys2Proof.Machine
end

section
/-! SUPPORT. The control commands NOP, PREPARE, LATCH, CLRERR and SWRESET and the parameter write SETWAVE:
the statements O16 to O19, O21, O25 and O26 (rules R160 to R164, R166, R167). -/

namespace Sys2Proof.Machine

/-! ### The sample-rate clamp -/

theorem value64_srMin : value64 Config.srMin = some 1 := by decide +kernel

theorem value64_srMax : value64 Config.srMax = some 1048576 := by decide +kernel

/-- `clampSR` of a finite rate, by the rate's value (rule R162). -/
theorem clampSr_fin {x : B64} {v : ℚ} (hx : value64 x = some v) :
    clampSr x =
      if v < 1 then (Config.srMin, true)
      else if 1048576 < v then (Config.srMax, true)
      else (x, false) := by
  simp only [clampSr, lt64_fin hx value64_srMin, lt64_fin value64_srMax hx, decide_eq_true_eq]

/-- Settles O18: a finite rate by its value, and the two infinities by computation. -/
theorem clampSrLimitsRate : Obligations.ClampSrLimitsRate := by
  refine ⟨fun x v hx => ?_, by decide +kernel, by decide +kernel⟩
  rw [clampSr_fin hx]
  refine ⟨fun hlow => if_pos hlow, fun hhigh => ?_, fun ⟨hlo, hhi⟩ => ?_⟩
  · rw [if_neg (by linarith), if_pos hhigh]; rfl
  · rw [if_neg hlo.not_gt, if_neg hhi.not_gt]

/-! ### PREPARE -/

/-- Settles O17: a NaN rate raises `ERR_SR_NAN`; with any other rate every slot keeps all but its
increment. -/
theorem prepareEffect : Obligations.PrepareEffect := by
  refine fun d s => ⟨fun hnan => ?_, fun hrate => ?_⟩
  · exact ⟨_, exec_prepare_nan s ((isNaN64_iff d).mpr hnan),
      stickyAfter_of_eq (e := .errSrNan) (c := true) rfl, fun _ => rfl, rfl, rfl, rfl, rfl, rfl, rfl⟩
  · rw [← isNaN64_iff, Bool.not_eq_true] at hrate
    refine ⟨_, exec_prepare_rate s hrate, stickyAfter_of_eq (e := .infSrClamp) (by simp), rfl, rfl,
      fun v => ?_, by simp, by simp, by simp, by simp⟩
    rw [State.setRate_slot, State.raiseIf_slot]
    exact ⟨rfl, rfl, rfl, rfl, rfl, rfl⟩

/-! ### CLRERR -/

/-- Settles O25: a mask with bit 7 clear clears the bits it names, and one with bit 7 set is illegal. -/
theorem clrerrEffect : Obligations.ClrerrEffect := by
  intro m s
  cases hm : m.getLsbD 7
  · exact ⟨_, exec_clrerr_legal s hm, fun _ _ hi => clearSticky_bit m s.sticky hi, nofun, fun _ => rfl,
      rfl, rfl, rfl, rfl, rfl, rfl⟩
  · exact ⟨_, exec_clrerr_illegal s hm, nofun,
      fun _ => stickyAfter_of_eq (e := .errIllegal) (c := true) rfl, fun _ => rfl, rfl, rfl, rfl, rfl, rfl,
      rfl⟩

/-! ### NOP, LATCH, SETWAVE and SWRESET -/

/-- Settles O16: the arm of NOP answers the state it is given. -/
theorem nopChangesNothing : Obligations.NopChangesNothing := fun _ => rfl

/-- Settles O19: LATCH raises `INF_WAVE_CLAMP` when the selector clamped, and writes `WAVE_CUR`. -/
theorem latchEffect : Obligations.LatchEffect := by
  refine fun s => ⟨_, exec_latch s, rfl, ?_, s.raiseIf_slot _ _, ?_⟩
  · exact stickyAfter_of_eq (e := .infWaveClamp) (s.raiseIf_sticky _ _)
  · simp

/-- Settles O21: SETWAVE writes `WAVE_PEND` alone. -/
theorem setwaveStoresPattern : Obligations.SetwaveStoresPattern := fun w s =>
  ⟨_, exec_setwave w s, rfl, fun _ => rfl, rfl, rfl, rfl, rfl, rfl, rfl⟩

/-- Settles O26: SWRESET leaves each slot at its reset value and each register at that of `State.reset`. -/
theorem swresetEffect : Obligations.SwresetEffect := by
  obtain ⟨-, -, -, -, -, -, hstatus, -, -⟩ := resetValues
  refine fun s => ⟨_, exec_swreset s, fun v => ?_, rfl, rfl, rfl, rfl, rfl, hstatus, rfl, rfl⟩
  rw [State.outPort, State.resetBlock_slot]
  exact ⟨rfl, rfl⟩

end Sys2Proof.Machine
end

section
/-! SUPPORT. The event an instruction meets, what a step does to the event bits and the model's record, and
the statements O13, O50 and O51 (rules R203 to R206). -/

namespace Sys2Proof.Machine

/-! ### The event an instruction meets -/

/-- The event `e` under a condition. -/
def eventIf (c : Bool) (e : Event) : Option Event := if c then some e else none

@[simp] theorem eventIf_eq_some_iff {c : Bool} {e e' : Event} :
    eventIf c e = some e' ↔ c = true ∧ e = e' := by
  cases c <;> simp [eventIf]

/-- The event of rule R203 that an instruction meets in a state; rule R204 leaves at most one. -/
def eventMet (s : State) : Instr → Option Event
  | .prepare d => (eventIf (isNaN64 d) .errSrNan).or (eventIf (clampSr d).2 .infSrClamp)
  | .latch => eventIf (sel s.wavePend).2 .infWaveClamp
  | .noteon _ n => eventIf (noteClamped n) .infNoteClamp
  | .tick => eventIf (!s.prepared) .errUnprep
  | .read a => eventIf (reservedAddr a) .errBadaddr
  | .clrerr m => eventIf (m.getLsbD 7) .errIllegal
  | .nop | .kill _ | .swreset | .setwave _ | .sine | .saw | .square | .tri | .noise => none

/-- The event whose fault a model records (rule R206). -/
def Fault.event : Fault → Event
  | .illegal => .errIllegal
  | .srNan => .errSrNan
  | .unprep => .errUnprep
  | .badAddr => .errBadaddr

theorem Event.fault_eq_some_iff {e : Event} {f : Fault} : e.fault = some f ↔ e = f.event := by
  cases e <;> cases f <;> decide

section
variable {s : State} {i : Instr}

theorem eventMet_errIllegal_iff :
    eventMet s i = some .errIllegal ↔ ∃ m, i = .clrerr m ∧ m.getLsbD 7 = true := by
  cases i <;> simp [eventMet]

theorem eventMet_errSrNan_iff :
    eventMet s i = some .errSrNan ↔ ∃ d, i = .prepare d ∧ NanPattern64 d := by
  cases i <;> simp [eventMet, isNaN64_iff]

theorem eventMet_errUnprep_iff :
    eventMet s i = some .errUnprep ↔ i = .tick ∧ s.prepared = false := by
  cases i <;> simp [eventMet]

theorem eventMet_errBadaddr_iff :
    eventMet s i = some .errBadaddr ↔ ∃ a, i = .read a ∧ 0x2D ≤ a.toNat := by
  cases i <;> simp [eventMet, reservedAddr]

end

/-! ### The event bits and the record from one state to the next -/

/-- From `s` to `t` no event but `o` is taken: of the event bits that are clear only its own can be set, and
the record gains its fault and keeps the others. -/
structure TakesEvent (s t : State) (o : Option Event) : Prop where
  sticky : ∀ k < 7, t.sticky.getLsbD k = true → s.sticky.getLsbD k = true ∨ ∃ e, o = some e ∧ k = e.bit
  faults : t.faults = o.elim s.faults fun e => s.faults.after e

section
variable {s t : State} {o : Option Event}

theorem takesEvent_none (hsticky : t.sticky = s.sticky) (hfaults : t.faults = s.faults) :
    TakesEvent s t none :=
  ⟨fun _ _ hk => .inl (hsticky ▸ hk), hfaults⟩

theorem takesEvent_raise {e : Event} (hsticky : t.sticky = setSticky e s.sticky)
    (hfaults : t.faults = s.faults.after e) : TakesEvent s t (some e) where
  sticky k hk ht := by simpa [hsticky, setSticky_bit e _ hk] using ht
  faults := hfaults

theorem takesEvent_raiseIf {c : Bool} {e : Event}
    (hsticky : t.sticky = if c then setSticky e s.sticky else s.sticky)
    (hfaults : t.faults = if c then s.faults.after e else s.faults) :
    TakesEvent s t (eventIf c e) := by
  cases c
  · exact takesEvent_none hsticky hfaults
  · exact takesEvent_raise hsticky hfaults

theorem takesEvent_clearEvents (s : State) (m : BitVec 8) : TakesEvent s (s.clearEvents m) none where
  sticky k hk ht := by
    rw [State.clearEvents_sticky, clearSticky_bit m _ hk] at ht
    exact .inl (Bool.and_elim_left ht)
  faults := rfl

theorem takesEvent_resetBlock (s : State) : TakesEvent s s.resetBlock none where
  sticky k _ ht := by simp [State.reset] at ht
  faults := rfl

/-- The faults recorded afterwards are those recorded before and that of the event taken. -/
theorem TakesEvent.has_iff (h : TakesEvent s t o) (f : Fault) :
    t.faults.has f = true ↔ s.faults.has f = true ∨ o = some f.event := by
  rw [h.faults]
  cases o with
  | none => simp
  | some e => simp [FaultRecord.has_after, Event.fault_eq_some_iff]

end

/-- An instruction takes the event it meets, and no other. -/
theorem exec_takesEvent {i : Instr} {s t : State} (h : exec i s = .next t) :
    TakesEvent s t (eventMet s i) := by
  cases execEffect_of_exec h with
  | prepareNan hd => rw [eventMet, hd]; exact takesEvent_raise rfl rfl
  | prepareRate hd =>
    rw [eventMet, hd]
    exact takesEvent_raiseIf (by simp) (by simp)
  | latch => exact takesEvent_raiseIf (by simp) (by simp)
  | noteon u n => exact takesEvent_raiseIf (by simp) (by simp [FaultRecord.after, Event.fault])
  | tickPrepared hs => rw [eventMet, hs]; exact takesEvent_none rfl rfl
  | tickUnprepared hs => rw [eventMet, hs]; exact takesEvent_raise rfl rfl
  | readMapped ha => rw [eventMet, ha]; exact takesEvent_none rfl rfl
  | readReserved ha => rw [eventMet, ha]; exact takesEvent_raise rfl rfl
  | clrerrLegal hm => rw [eventMet, hm]; exact takesEvent_clearEvents s _
  | clrerrIllegal hm => rw [eventMet, hm]; exact takesEvent_raise rfl rfl
  | swreset => exact takesEvent_resetBlock s
  | wave w => cases w <;> exact takesEvent_none rfl rfl
  | nop => exact takesEvent_none rfl rfl
  | kill u => exact takesEvent_none rfl rfl
  | setwave w => exact takesEvent_none rfl rfl

/-- A step takes at most one event (rule R204): a decoded command the one its instruction meets, an illegal
word `ERR_ILLEGAL`, and the rest none. -/
theorem step_takesEvent {s t : State} (h : step s = .next t) : ∃ o, TakesEvent s t o := by
  rcases step_cases h with ⟨-, rfl⟩ | ⟨rest, -, ⟨cmd, data, i, -, -, hexec⟩ |
    ⟨cmd, data, e, -, -, rfl⟩ | ⟨w, -, rfl⟩ | ⟨a, w, -, -, rfl⟩ | ⟨-, rfl⟩⟩
  · exact ⟨_, takesEvent_none rfl rfl⟩
  · obtain ⟨hsticky, hfaults⟩ := exec_takesEvent hexec
    exact ⟨_, hsticky, hfaults⟩
  · exact ⟨_, takesEvent_raise rfl rfl⟩
  · exact ⟨_, takesEvent_none rfl rfl⟩
  · exact ⟨_, takesEvent_none rfl rfl⟩
  · obtain ⟨hsticky, hfaults⟩ := takesEvent_resetBlock { s with inputs := rest }
    exact ⟨_, hsticky, hfaults⟩

/-! ### The statements -/

/-- Settles O13: both bits are that of the one event the step takes. -/
theorem atMostOneEventPerStep : Obligations.AtMostOneEventPerStep := by
  intro s t h i hi j hj hsi hti hsj htj
  obtain ⟨o, hevent⟩ := step_takesEvent h
  obtain hold | ⟨e, he, hie⟩ := hevent.sticky i hi hti
  · simp [hsi] at hold
  obtain hold | ⟨e', he', hje⟩ := hevent.sticky j hj htj
  · simp [hsj] at hold
  cases he.symm.trans he'
  exact hie.trans hje.symm

/-- Settles O50: taking an event only adds to the record. -/
theorem faultRecordNeverCleared : Obligations.FaultRecordNeverCleared := by
  intro s t f h hf
  obtain ⟨o, hevent⟩ := step_takesEvent h
  exact (hevent.has_iff f).mpr (.inl hf)

/-- Only a waveform operation with the noise moves the draw counter (rule R106, log 5). -/
theorem exec_noiseCtr {i : Instr} {s t : State} (h : exec i s = .next t)
    (hne : t.noiseCtr ≠ s.noiseCtr) :
    i = .noise ∨ (i = .tick ∧ s.prepared = true ∧ s.waveCur = .noise) := by
  cases execEffect_of_exec h with
  | tickPrepared hs => exact .inr ⟨rfl, hs, by simpa using hne⟩
  | wave w =>
    obtain rfl : w = .noise := by simpa using hne
    exact .inl rfl
  -- the other paths keep the counter
  | _ => simp at hne

/-- Settles O51: the record gains the fault of the event the instruction meets. -/
theorem modelFieldsFrame : Obligations.ModelFieldsFrame := by
  intro i s t h
  have hrecord := (exec_takesEvent h).has_iff
  exact ⟨exec_inputs h, exec_noiseCtr h,
    (hrecord .illegal).trans (or_congr_right eventMet_errIllegal_iff),
    (hrecord .srNan).trans (or_congr_right eventMet_errSrNan_iff),
    (hrecord .unprep).trans (or_congr_right eventMet_errUnprep_iff),
    (hrecord .badAddr).trans (or_congr_right eventMet_errBadaddr_iff)⟩

end Sys2Proof.Machine
end
